-- ==== Sys2Proof/Word.lean ====
section
/-! DEFINITION. The word types of the block: bytes of the stream and 16-bit command words and checksums (00_scope.md R11). -/

namespace Sys2Proof

/-- A `u8`: a stream byte, a header field, an operand (R11). -/
abbrev Byte := BitVec 8

/-- A `u16`: a command word on the port (R70) or a CRC value (R101). -/
abbrev Word := BitVec 16

end Sys2Proof
end

