-- ==== Sys2Proof/Config.lean ====
section
/-! DEFINITION. The fixed parameters of 00_scope.md R7, the named parameter CRC_XOROUT of R8, and the one value the model chose for a byte of RAW that nothing has written. -/

namespace Sys2Proof.Config

/-- `MAGIC_V1` (R7). -/
def magicV1 : Byte := 0xFE

/-- `MAGIC_V2` (R7). -/
def magicV2 : Byte := 0xFD

/-- `HDR_V1`: V1 header bytes, magic included (R7). -/
def hdrV1 : Nat := 6

/-- `HDR_V2`: V2 header bytes, magic included (R7). -/
def hdrV2 : Nat := 10

/-- `CK_LEN`: checksum bytes (R7). -/
def ckLen : Nat := 2

/-- `SIG_LEN`: signature-trailer bytes (R7). -/
def sigLen : Nat := 13

/-- `MAX_PAYLOAD` (R7). -/
def maxPayload : Nat := 255

/-- `MAX_FRAME` (R7). -/
def maxFrame : Nat := 280

/-- `RAW_CAP`: capacity of the candidate buffer RAW (R7, R24). -/
def rawCap : Nat := 280

/-- `PEND_CAP`: capacity of the replay queue PQ (R7, R27). -/
def pendCap : Nat := 279

/-- `CRC_POLY` as used: 0x1021 with its bits reversed (R7). -/
def crcPolyReflected : Word := 0x8408

/-- `CRC_INIT` (R7). -/
def crcInit : Word := 0xFFFF

/-- The mask of `SIGNED_BIT`, bit 0 of `incompat_flags` (R7, R77). -/
def signedMask : Byte := 0x01

/-- `CRC_XOROUT` (R8): the spec fixes 0x0000 and allows 0xFFFF as the one alternative. The functions that use it take it as an
argument; only VALIDATE's arm and FrameEncode's default supply this value.
DESIGN CHOICE of the spec itself (D1), notes/assumptions/7. -/
def crcXorOut : Word := 0x0000

/-- The two values R8 allows for `CRC_XOROUT`. -/
def crcXorOutAllowed (x : Word) : Prop := x = 0x0000 ∨ x = 0xFFFF

/-- What a byte of RAW reads as that nothing has written since reset. R47 leaves it unspecified (U2).
DESIGN CHOICE, unsafe, notes/assumptions/3. -/
def rawFill : Byte := 0x00

end Sys2Proof.Config
end

