-- ==== Sys2Proof/Syntax.lean ====
section
/-! DEFINITION. The instructions: one constructor for each row of spec/opcode_table.json, with the frame record of 41_header_codec.md R120, the result codes of 60_exceptions.md R190, and the units of the port an instruction is encoded as. -/

namespace Sys2Proof

/-- The protocol version of a frame (R23, R123). -/
inductive Version where
  | v1
  | v2
deriving DecidableEq, Repr

/-- The named result codes (R190). Codes 11 to 15 have no name. -/
inductive Code where
  | ok
  | incomplete
  | malformed
  | checksumMismatch
  | invalidSignature
  | staleTimestamp
  | unknownMessage
  | ioFailure
  | bufferTooShort
  | notReady
  | illegalCommand
deriving DecidableEq, Repr

/-- A signature trailer (R76, R128): the link id, the timestamp as an unsigned number, and the six signature bytes in wire
order. -/
structure Trailer where
  linkId    : Byte
  timestamp : BitVec 48
  signature : Vector Byte 6
deriving DecidableEq, Repr

/-- A frame record (R120). `len` is the byte on the wire; WellFormed says that it is the payload's length. -/
structure FrameRecord where
  version  : Version
  len      : Byte
  incompat : Byte
  compat   : Byte
  seq      : Byte
  sys      : Byte
  comp     : Byte
  msgid    : BitVec 24
  payload  : List Byte
  checksum : Word
  sig      : Option Trailer
deriving DecidableEq, Repr

/-- The fields of a header (R121, R122). `len` is a Nat here, because HeaderEncode refuses a length above 255 (R131) and so must
be able to meet one. -/
structure Header where
  len      : Nat
  incompat : Byte
  compat   : Byte
  seq      : Byte
  sys      : Byte
  comp     : Byte
  msgid    : BitVec 24
deriving DecidableEq, Repr

/-- The instructions, one for each row of spec/opcode_table.json. The operand byte that a command ignores (R70) is kept, so that
no bit of a word is dropped (notes/assumptions/9). -/
inductive Instr where
  /-- NOP (R161). -/
  | nop (arg : Byte)
  /-- PUSH b (R160). -/
  | push (b : Byte)
  /-- VALIDATE crc_extra (R105). -/
  | validate (crcExtra : Byte)
  /-- ACCEPT (R162). -/
  | accept (arg : Byte)
  /-- REJECT (R163). -/
  | reject (arg : Byte)
  /-- ABORT (R165). -/
  | abort (arg : Byte)
  /-- A reserved opcode, 0x06 to 0xFF (R73, R166). -/
  | reserved (op arg : Byte)
  /-- The pseudo-instruction PUSHS b0, ..., bk (R83). -/
  | pushs (bytes : List Byte)
  /-- The stream byte 0xFE (R153). -/
  | sofV1
  /-- The stream byte 0xFD (R153). -/
  | sofV2
  /-- A stream byte that is neither magic (R153). -/
  | noise (b : Byte)
  /-- A V1 frame on the wire (R74, R121). -/
  | v1Frame (r : FrameRecord)
  /-- An unsigned V2 frame on the wire (R75, R122). -/
  | v2FrameUnsigned (r : FrameRecord)
  /-- A signed V2 frame on the wire (R75, R76, R128). -/
  | v2FrameSigned (r : FrameRecord)
deriving DecidableEq, Repr

/-- One unit of the port: what the host hands over in one transaction, in the four formats of the opcode table (CMD16, CMD16
pseudo, WIRE8, WIRE frame). -/
inductive PortUnit where
  /-- One 16-bit command word (R70). -/
  | command (w : Word)
  /-- The words of one PUSHS, in order (R83). -/
  | commands (ws : List Word)
  /-- One byte of the wire. -/
  | wireByte (b : Byte)
  /-- The bytes of one frame, in transmission order (R13). -/
  | wireFrame (bytes : List Byte)
deriving DecidableEq, Repr

/-- Why a port unit is no instruction. -/
inductive DecodeReject where
  /-- A sequence of words that are not all PUSH words, or an empty one (R83). -/
  | notPushSequence
  /-- A frame unit whose bytes end before the frame does (R127, Incomplete). -/
  | frameIncomplete
  /-- A frame unit whose first byte is no magic byte (R127, Malformed). -/
  | frameMalformed
  /-- A frame unit with bytes after its frame (R127, bytes_consumed below the unit's length). -/
  | bytesAfterFrame
deriving DecidableEq, Repr

end Sys2Proof
end

