-- ==== Sys2Proof/WellFormed.lean ====
section
/-! DEFINITION. Which instructions have an encoding: the operand ranges of 30_encoding.md and the field relations of 41_header_codec.md R120 and R131. -/

namespace Sys2Proof

/-- What a V1 record must satisfy: no flag bytes, a message id of one byte, no trailer (R120, R121, R130). -/
def FrameRecord.fitsV1 (r : FrameRecord) : Bool :=
  r.incompat == 0 && r.compat == 0 && decide (r.msgid.toNat ≤ 255) && r.sig.isNone

/-- What a V2 record must satisfy: a trailer exactly when bit 0 of `incompat` is set (R120). -/
def FrameRecord.fitsV2 (r : FrameRecord) : Bool :=
  r.sig.isSome == (r.incompat &&& Config.signedMask == Config.signedMask)

/-- A frame record whose fields agree (R120): the payload has `len` bytes, and the record fits its version. -/
def FrameRecord.wellFormed (r : FrameRecord) : Bool :=
  r.payload.length == r.len.toNat &&
    match r.version with
    | .v1 => r.fitsV1
    | .v2 => r.fitsV2

/-- An instruction whose operands the encoding admits: reserved opcodes from 0x06 up (R73), PUSHS with at least one byte (R83),
NOISE other than the two magic bytes (R153), and records that fit their frame format (R74 to R76). -/
def Instr.wellFormed : Instr → Bool
  | .nop _ => true
  | .push _ => true
  | .validate _ => true
  | .accept _ => true
  | .reject _ => true
  | .abort _ => true
  | .reserved op _ => decide (6 ≤ op.toNat)
  | .pushs bs => !bs.isEmpty
  | .sofV1 => true
  | .sofV2 => true
  | .noise b => b != Config.magicV1 && b != Config.magicV2
  | .v1Frame r => r.wellFormed && r.version == .v1
  | .v2FrameUnsigned r => r.wellFormed && r.version == .v2 && r.sig.isNone
  | .v2FrameSigned r => r.wellFormed && r.version == .v2 && r.sig.isSome

end Sys2Proof
end

