-- ==== Sys2Proof/Decode.lean ====
section
/-! DEFINITION. The decoder of the port's units, the buffer-level decode functions HeaderDecode and FrameDecode (41_header_codec.md), the encoder, and the reading of an opcode-table word. -/

namespace Sys2Proof

/-! ### Bytes and fields -/

/-- `s[i]` (R11); a byte beyond the end reads 0, which no caller relies on. -/
def byteAt (s : List Byte) (i : Nat) : Byte := s.getD i 0

/-- `s[i..j]` (R11): the bytes at indexes i to j-1. -/
def slice (s : List Byte) (i j : Nat) : List Byte := (s.drop i).take (j - i)

/-- Two bytes as a `u16`, the first the least significant (R13, R51). -/
def le16 (b0 b1 : Byte) : Word := b0.zeroExtend 16 ||| (b1.zeroExtend 16 <<< 8)

/-- Three bytes as a `u24`, the first the least significant (R51, R122). -/
def le24 (b0 b1 b2 : Byte) : BitVec 24 :=
  b0.zeroExtend 24 ||| (b1.zeroExtend 24 <<< 8) ||| (b2.zeroExtend 24 <<< 16)

/-- Six bytes as a `u48`, the first the least significant (R51, R76). -/
def le48 (b0 b1 b2 b3 b4 b5 : Byte) : BitVec 48 :=
  b0.zeroExtend 48 ||| (b1.zeroExtend 48 <<< 8) ||| (b2.zeroExtend 48 <<< 16) ||| (b3.zeroExtend 48 <<< 24) |||
    (b4.zeroExtend 48 <<< 32) ||| (b5.zeroExtend 48 <<< 40)

/-- Byte k of a value, byte 0 the least significant: `v[8k+7:8k]` (R11). -/
def byteOf {w : Nat} (v : BitVec w) (k : Nat) : Byte := v.extractLsb' (8 * k) 8

/-- `LE6(t)` (R132). -/
def le6Bytes (t : BitVec 48) : List Byte :=
  [byteOf t 0, byteOf t 1, byteOf t 2, byteOf t 3, byteOf t 4, byteOf t 5]

/-! ### Version, header length, frame length -/

/-- `VersionOf` (R78, R123): none where the byte is no start of frame. -/
def versionOf (b : Byte) : Option Version :=
  if b = Config.magicV1 then some .v1
  else if b = Config.magicV2 then some .v2
  else none

/-- The magic byte that opens a frame of a version (R7). -/
def Version.magic : Version → Byte
  | .v1 => Config.magicV1
  | .v2 => Config.magicV2

/-- The view encoding of a version: 0 = V1, 1 = V2 (R23). -/
def Version.bit : Version → BitVec 1
  | .v1 => 0
  | .v2 => 1

/-- `H` (R14): the header length, magic included. -/
def Version.hdrLen : Version → Nat
  | .v1 => Config.hdrV1
  | .v2 => Config.hdrV2

/-- `signed` (R14, R77): bit 0 of `incompat_flags` of a V2 frame; false for V1 without reading any byte. -/
def signedOf (v : Version) (incompat : Byte) : Bool :=
  match v with
  | .v1 => false
  | .v2 => incompat &&& Config.signedMask == Config.signedMask

/-- `L` (R14, R79, R126). -/
def frameLength (v : Version) (len incompat : Byte) : Nat :=
  v.hdrLen + len.toNat + Config.ckLen + (if signedOf v incompat then Config.sigLen else 0)

/-! ### HeaderDecode and FrameDecode -/

/-- The fields of the header bytes of a version (R121, R122). -/
def headerFields (v : Version) (h : List Byte) : Header :=
  match v with
  | .v1 =>
    { len := (byteAt h 1).toNat, incompat := 0, compat := 0, seq := byteAt h 2, sys := byteAt h 3, comp := byteAt h 4,
      msgid := (byteAt h 5).zeroExtend 24 }
  | .v2 =>
    { len := (byteAt h 1).toNat, incompat := byteAt h 2, compat := byteAt h 3, seq := byteAt h 4, sys := byteAt h 5,
      comp := byteAt h 6, msgid := le24 (byteAt h 7) (byteAt h 8) (byteAt h 9) }

/-- `HeaderDecode` (R124, R193): empty buffer, bad magic, short header, in that order. -/
def headerDecode (buf : List Byte) : Except Code (Header × Version) :=
  if buf.length = 0 then .error .bufferTooShort
  else
    match versionOf (byteAt buf 0) with
    | none => .error .malformed
    | some v =>
      if buf.length < v.hdrLen then .error .bufferTooShort
      else .ok (headerFields v (slice buf 0 v.hdrLen), v)

/-- The trailer whose first byte is at offset T (R76, R128). -/
def trailerAt (buf : List Byte) (t : Nat) : Trailer :=
  { linkId := byteAt buf t
    timestamp := le48 (byteAt buf (t + 1)) (byteAt buf (t + 2)) (byteAt buf (t + 3)) (byteAt buf (t + 4)) (byteAt buf (t + 5))
      (byteAt buf (t + 6))
    signature := #v[byteAt buf (t + 7), byteAt buf (t + 8), byteAt buf (t + 9), byteAt buf (t + 10), byteAt buf (t + 11),
      byteAt buf (t + 12)] }

/-- The record of a buffer that holds the whole frame (R120, R127). -/
def recordOf (v : Version) (h : Header) (buf : List Byte) : FrameRecord :=
  let ck := v.hdrLen + h.len
  { version := v
    len := BitVec.ofNat 8 h.len
    incompat := h.incompat
    compat := h.compat
    seq := h.seq
    sys := h.sys
    comp := h.comp
    msgid := h.msgid
    payload := slice buf v.hdrLen ck
    checksum := le16 (byteAt buf ck) (byteAt buf (ck + 1))
    sig := if signedOf v h.incompat then some (trailerAt buf (ck + Config.ckLen)) else none }

/-- `FrameDecode` (R127, R193): the record and `bytes_consumed`, or Incomplete or Malformed. -/
def frameDecode (buf : List Byte) : Except Code (FrameRecord × Nat) :=
  if buf.length = 0 then .error .incomplete
  else
    match headerDecode buf with
    | .error .malformed => .error .malformed
    | .error _ => .error .incomplete
    | .ok (h, v) =>
      let total := frameLength v (BitVec.ofNat 8 h.len) h.incompat
      if buf.length < total then .error .incomplete
      else .ok (recordOf v h buf, total)

/-! ### The decoder -/

/-- The opcode map (R70, R71): `op` is `w[7:0]`, `arg` is `w[15:8]`. Every word is a command. -/
def decodeCommand (w : Word) : Instr :=
  let op := byteOf w 0
  let arg := byteOf w 1
  match op.toNat with
  | 0 => .nop arg
  | 1 => .push arg
  | 2 => .validate arg
  | 3 => .accept arg
  | 4 => .reject arg
  | 5 => .abort arg
  | _ => .reserved op arg

/-- The operands of a sequence of PUSH words; none where a word is not PUSH (R83). -/
def pushOperands : List Word → Option (List Byte)
  | [] => some []
  | w :: ws =>
    match decodeCommand w with
    | .push b => (pushOperands ws).map (b :: ·)
    | _ => none

/-- A byte of the wire offered while the receiver is seeking (R153). -/
def decodeWireByte (b : Byte) : Instr :=
  match versionOf b with
  | some .v1 => .sofV1
  | some .v2 => .sofV2
  | none => .noise b

/-- The frame row a record belongs to (R74, R75). -/
def frameInstr (r : FrameRecord) : Instr :=
  match r.version, r.sig with
  | .v1, _ => .v1Frame r
  | .v2, none => .v2FrameUnsigned r
  | .v2, some _ => .v2FrameSigned r

/-- The decoder: total on every unit of the port, rejecting by name (notes/assumptions/10 and 20). -/
def decode : PortUnit → Except DecodeReject Instr
  | .command w => .ok (decodeCommand w)
  | .commands ws =>
    match pushOperands ws with
    | some (b :: bs) => .ok (.pushs (b :: bs))
    | _ => .error .notPushSequence
  | .wireByte b => .ok (decodeWireByte b)
  | .wireFrame bs =>
    match frameDecode bs with
    | .error .malformed => .error .frameMalformed
    | .error _ => .error .frameIncomplete
    | .ok (r, consumed) => if consumed = bs.length then .ok (frameInstr r) else .error .bytesAfterFrame

/-! ### The encoder -/

/-- The command word of an opcode and an operand (R70): `(arg << 8) | op`. -/
def commandWord (op arg : Byte) : Word := (arg.zeroExtend 16 <<< 8) ||| op.zeroExtend 16

/-- The header bytes of a frame record (R74, R75, R121, R122). -/
def FrameRecord.headerBytes (r : FrameRecord) : List Byte :=
  match r.version with
  | .v1 => [Config.magicV1, r.len, r.seq, r.sys, r.comp, byteOf r.msgid 0]
  | .v2 =>
    [Config.magicV2, r.len, r.incompat, r.compat, r.seq, r.sys, r.comp, byteOf r.msgid 0, byteOf r.msgid 1, byteOf r.msgid 2]

/-- The bytes of a trailer (R76): link id, timestamp low byte first, signature in wire order. -/
def Trailer.bytes (t : Trailer) : List Byte := t.linkId :: le6Bytes t.timestamp ++ t.signature.toList

/-- The bytes of a frame on the wire (R74 to R76): header, payload, checksum low byte first, trailer where there is one. -/
def FrameRecord.wireBytes (r : FrameRecord) : List Byte :=
  r.headerBytes ++ r.payload ++ [byteOf r.checksum 0, byteOf r.checksum 1] ++
    match r.sig with
    | none => []
    | some t => t.bytes

/-- The encoder (R71, R83, R74 to R76). -/
def encode : Instr → PortUnit
  | .nop arg => .command (commandWord 0x00 arg)
  | .push b => .command (commandWord 0x01 b)
  | .validate x => .command (commandWord 0x02 x)
  | .accept arg => .command (commandWord 0x03 arg)
  | .reject arg => .command (commandWord 0x04 arg)
  | .abort arg => .command (commandWord 0x05 arg)
  | .reserved op arg => .command (commandWord op arg)
  | .pushs bs => .commands (bs.map (commandWord 0x01))
  | .sofV1 => .wireByte Config.magicV1
  | .sofV2 => .wireByte Config.magicV2
  | .noise b => .wireByte b
  | .v1Frame r => .wireFrame r.wireBytes
  | .v2FrameUnsigned r => .wireFrame r.wireBytes
  | .v2FrameSigned r => .wireFrame r.wireBytes

/-! ### A word of the opcode table -/

/-- The bytes of a number, byte 0 the least significant. -/
def bytesOfNat (count w : Nat) : List Byte := (List.range count).map fun i => BitVec.ofNat 8 (w >>> (8 * i))

/-- The 16-bit words of a number, word 0 the least significant. -/
def wordsOfNat (count w : Nat) : List Word := (List.range count).map fun i => BitVec.ofNat 16 (w >>> (16 * i))

/-- The frame at the start of a buffer, without the bytes that follow it. -/
def frameUnit (buf : List Byte) : PortUnit :=
  match frameDecode buf with
  | .error _ => .wireFrame buf
  | .ok (_, consumed) => .wireFrame (buf.take consumed)

/-- The port unit of an opcode-table word (notes/assumptions/12): a row of 8 bits is a wire byte, a row of 16 bits a command word,
a longer row a frame where its first byte is a magic byte, else the words of a PUSHS. Bits above nbits are 0. -/
def unitOfTableWord (nbits w : Nat) : PortUnit :=
  if nbits ≤ 8 then .wireByte (BitVec.ofNat 8 w)
  else if nbits ≤ 16 then .command (BitVec.ofNat 16 w)
  else
    match versionOf (BitVec.ofNat 8 w) with
    | some _ => frameUnit (bytesOfNat Config.maxFrame w)
    | none => .commands (wordsOfNat (nbits / 16) w)

/-- The instruction the decoder reads from an opcode-table word. -/
def decodeTableWord (nbits w : Nat) : Option Instr :=
  match decode (unitOfTableWord nbits w) with
  | .ok i => some i
  | .error _ => none

end Sys2Proof
end

