-- ==== Sys2Proof/Machine/State.lean ====
section
/-! DEFINITION. The state of the block (10_state.md), what the host has pending on the port, the reasons a step stops, and the state after reset. -/

namespace Sys2Proof.Machine

/-- `rx_state` (R22): the eight values of the 3-bit enumeration. `unused6` and `unused7` are the codes no rule reaches (R29, U1;
notes/assumptions/5). -/
inductive RxState where
  | seeking
  | header
  | payload
  | checksum
  | signature
  | emit
  | unused6
  | unused7
deriving DecidableEq, Repr

/-- The output views (R36 to R45): everything the host can read. -/
inductive View where
  | inReady
  | frameValid
  | statusOut
  | outVersion
  | outLen
  | outIncompat
  | outCompat
  | outSeq
  | outSys
  | outComp
  | outMsgid
  | outChecksum
  | outSigned
  | outAdvUnknownIncompat
  | outLinkId
  | outTimestamp
  /-- `out_sig[j]`, j = 0..5 (R43). -/
  | outSig (j : Fin 6)
  /-- `PAYLOAD[i]` (R44). -/
  | payload (i : Nat)
  | outTotalLen
  /-- `RAWOUT[i]` (R45). -/
  | rawOut (i : Nat)
deriving DecidableEq, Repr

/-- One act of the host (R3): hand over a unit of the port, assert the reset input (R210), or read a view. -/
inductive HostEvent where
  | issue (u : PortUnit)
  | reset
  | read (v : View)
deriving DecidableEq, Repr

/-- RAW as a list of (index, byte) cells: indexes strictly rising and below 280, no cell equal to what an unlisted index reads as. -/
abbrev Memory := List Host.Cell

/-- The state of the block: the tuple (rx_state, ver, n, RAW, crc_run, PQ, status) of 10_state.md, and the model's own field
`port`. -/
structure State where
  /-- `rx_state`, 3 bits (R22). -/
  rxState : RxState
  /-- `ver`, 1 bit: the version of the candidate in RAW (R23). -/
  ver     : Version
  /-- `n`, 9 bits: how many bytes of RAW the candidate holds (R25). -/
  n       : Nat
  /-- `RAW[0..279]`, the candidate buffer (R24). -/
  raw     : Memory
  /-- `crc_run`, 16 bits: the running CRC (R26). -/
  crcRun  : Word
  /-- `PQ`, the replay queue, its head first (R27). -/
  pq      : List Byte
  /-- `status`, 4 bits: the result of the last command that wrote it (R28, R190). -/
  status  : BitVec 4
  /-- The MODEL's own field: what the host does next, in the order it does it (R3, R58). DESIGN CHOICE, notes/assumptions/1. -/
  port    : List HostEvent
deriving DecidableEq, Repr

/-- The reasons the model stops with a fault. -/
inductive Fault where
  /-- Raised by every instruction but ABORT while `rx_state` is 6 or 7 (U1). Safe: no run reaches it (notes/assumptions/5). -/
  | rxStateUnused
  /-- Raised by every instruction but ABORT while `status` holds 4 to 7 or 11 to 15 (U5). Safe: no run reaches it
  (notes/assumptions/6). -/
  | statusUnused
  /-- Raised by the read of a frame view outside EMIT (R46). Safe: the spec gives the read no value. -/
  | frameViewOutsideEmit
  /-- Raised by the read of a trailer view of an unsigned frame (R43, R46). Safe: the spec gives the read no value. -/
  | trailerViewUnsigned
  /-- Raised by the read of RAWOUT[i] with i >= L (R45, R46). Safe: the spec gives the read no value. -/
  | rawOutBeyondFrame
deriving DecidableEq, Repr

/-- The reasons the model refuses. -/
inductive Refusal where
  /-- Raised by an arm of exec that has no meaning yet. Safe. No arm of this model raises it. -/
  | notModelled (mnemonic : String)
  /-- Raised by the read of PAYLOAD[i] with i >= 255, an index that names no view (R44). Safe. -/
  | payloadIndexNamesNoView
  /-- Raised by a unit of the port that is no unit of the opcode table. No command word is refused. Safe
  (notes/assumptions/10 and 20). -/
  | unitRejected (reason : DecodeReject)
deriving DecidableEq, Repr

/-- The state after reset (R47): every element at the value the spec gives, RAW with nothing listed (notes/assumptions/3),
nothing pending on the port (notes/assumptions/1). Status 0 is OK (R190). -/
def State.reset : State :=
  { rxState := .seeking
    ver     := .v1
    n       := 0
    raw     := []
    crcRun  := 0xFFFF
    pq      := []
    status  := 0
    port    := [] }

end Sys2Proof.Machine
end

