-- ==== Sys2Proof/Machine/Checksum.lean ====
section
/-! DEFINITION. The pure functions of the Checksum Engine (40_checksum.md R101 to R104, R108). -/

namespace Sys2Proof.Machine

/-- One round of the loop of R101: shift right, and fold the reflected polynomial in where the bit shifted out is 1. -/
def crcRound (c : Word) : Word := if c.getLsbD 0 then (c >>> 1) ^^^ Config.crcPolyReflected else c >>> 1

/-- `CrcAccumulate` (R101). -/
def crcAccumulate (crc : Word) (b : Byte) : Word := Nat.repeat crcRound 8 (crc ^^^ b.zeroExtend 16)

/-- The bytes of a sequence folded into a CRC, first byte first (R102). -/
def crcFold (crc : Word) (s : List Byte) : Word := s.foldl crcAccumulate crc

/-- `CrcCompute` (R102). -/
def crcCompute (s : List Byte) : Word := crcFold Config.crcInit s

/-- The last step of a checksum (R103, R105): fold `crc_extra` in, then XOR with `CRC_XOROUT`, here an argument (R8, D1). -/
def crcFinish (xorOut crc : Word) (crcExtra : Byte) : Word := crcAccumulate crc crcExtra ^^^ xorOut

/-- `Checksum` (R103), for a given `CRC_XOROUT`. -/
def checksumWith (xorOut : Word) (body : List Byte) (crcExtra : Byte) : Word := crcFinish xorOut (crcCompute body) crcExtra

/-- `Checksum` (R103) at the value R8 fixes. -/
def checksum (body : List Byte) (crcExtra : Byte) : Word := checksumWith Config.crcXorOut body crcExtra

/-- `TBL[x]` (R108 (a)): the loop of R101 run from `c = x`. -/
def crcTable (x : Byte) : Word := Nat.repeat crcRound 8 (x.zeroExtend 16)

/-- The table form of CrcAccumulate (R108 (a)). -/
def crcAccumulateTable (crc : Word) (b : Byte) : Word := (crc >>> 8) ^^^ crcTable (crc.setWidth 8 ^^^ b)

/-- The nibble form of CrcAccumulate (R108 (b)). -/
def crcAccumulateNibble (crc : Word) (b : Byte) : Word :=
  let t := b ^^^ crc.setWidth 8
  let t := t ^^^ (t <<< 4)
  (crc >>> 8) ^^^ (t.zeroExtend 16 <<< 8) ^^^ (t.zeroExtend 16 <<< 3) ^^^ (t.zeroExtend 16 >>> 4)

/-- The checksummed bytes of a frame (R80, R104): the header without the magic, then the payload as transmitted. -/
def checksumBody (frame : List Byte) (hdrLen len : Nat) : List Byte := slice frame 1 (hdrLen + len)

end Sys2Proof.Machine
end

