-- ==== Sys2Proof/Machine/Memory.lean ====
section
/-! DEFINITION. Reading and writing the candidate buffer RAW (10_state.md R24), held as a canonical list of cells. -/

namespace Sys2Proof.Machine

/-- `RAW[i]`: the byte at an index; an unlisted index reads `Config.rawFill` (notes/assumptions/3). -/
def Memory.read : Memory → Nat → Byte
  | [], _ => Config.rawFill
  | (a, v) :: m, i => if i = a then v else Memory.read m i

/-- The list with the cell of one index set, or left out where the byte is what an unlisted index reads as. -/
def Memory.write : Memory → Nat → Byte → Memory
  | [], i, b => if b = Config.rawFill then [] else [(i, b)]
  | (a, v) :: m, i, b =>
    if i < a then (if b = Config.rawFill then (a, v) :: m else (i, b) :: (a, v) :: m)
    else if i = a then (if b = Config.rawFill then m else (i, b) :: m)
    else (a, v) :: Memory.write m i b

/-- Indexes at or above `low`, strictly rising, below the capacity of RAW; no cell equal to what an unlisted index reads as. -/
def Memory.wfFrom : Nat → Memory → Bool
  | _, [] => true
  | low, (a, v) :: m => decide (low ≤ a) && decide (a < Config.rawCap) && v != Config.rawFill && Memory.wfFrom (a + 1) m

/-- The canonical form. -/
def Memory.wf (m : Memory) : Bool := Memory.wfFrom 0 m

/-- `RAW[i..j]` (R11): the bytes at indexes i to j-1. -/
def Memory.slice (m : Memory) (i j : Nat) : List Byte := (List.range (j - i)).map fun k => m.read (i + k)

end Sys2Proof.Machine
end

