-- ==== Sys2Proof/Machine/Operands.lean ====
section
/-! DEFINITION. What the rules read from a candidate in RAW: the derived quantities of 00_scope.md R14 and the field positions of 10_state.md R40 to R45. -/

namespace Sys2Proof.Machine

/-- `H` (R14). -/
def State.hdrLen (s : State) : Nat := s.ver.hdrLen

/-- `len` (R14): RAW[1]. -/
def State.len (s : State) : Nat := (s.raw.read 1).toNat

/-- `signed` (R14): bit 0 of RAW[2] for V2. -/
def State.signed (s : State) : Bool := signedOf s.ver (s.raw.read 2)

/-- `L` (R14). -/
def State.total (s : State) : Nat := frameLength s.ver (s.raw.read 1) (s.raw.read 2)

/-- `T` (R43): the offset of the trailer. -/
def State.trailerOffset (s : State) : Nat := s.hdrLen + s.len + Config.ckLen

/-- The RAW byte of a header field at its V1 or V2 offset (R40, R121, R122). -/
def State.field (s : State) (offV1 offV2 : Nat) : Byte :=
  match s.ver with
  | .v1 => s.raw.read offV1
  | .v2 => s.raw.read offV2

/-- The RAW byte of a flag field, which reads 0 for V1 (R40). -/
def State.flagField (s : State) (offV2 : Nat) : Byte :=
  match s.ver with
  | .v1 => 0
  | .v2 => s.raw.read offV2

/-- `out_msgid` (R40). -/
def State.msgid (s : State) : BitVec 24 :=
  match s.ver with
  | .v1 => (s.raw.read 5).zeroExtend 24
  | .v2 => le24 (s.raw.read 7) (s.raw.read 8) (s.raw.read 9)

/-- `out_checksum` (R41): the received checksum. -/
def State.receivedChecksum (s : State) : Word :=
  le16 (s.raw.read (s.hdrLen + s.len)) (s.raw.read (s.hdrLen + s.len + 1))

/-- `out_timestamp` (R43). -/
def State.timestamp (s : State) : BitVec 48 :=
  let t := s.trailerOffset
  le48 (s.raw.read (t + 1)) (s.raw.read (t + 2)) (s.raw.read (t + 3)) (s.raw.read (t + 4)) (s.raw.read (t + 5))
    (s.raw.read (t + 6))

/-- `PAYLOAD[i]` (R44): zero from index `len` on. -/
def State.payloadByte (s : State) (i : Nat) : Byte := if i < s.len then s.raw.read (s.hdrLen + i) else 0

/-- `RAW[0..n]` (R24): the bytes of the candidate, in arrival order. -/
def State.held (s : State) : List Byte := s.raw.slice 0 s.n

/-- The signed byte range of a held frame (R129): `RAWOUT[0..L-6]`. -/
def State.prehashBytes (s : State) : List Byte := s.raw.slice 0 (s.total - 6)

end Sys2Proof.Machine
end

