-- ==== Sys2Proof/Machine/Flags.lean ====
section
/-! DEFINITION. The block's flag bits and result codes: the handshake views R36 and R37, the advisory view R42, the status codes R190, and the codes no rule reaches (U1, U5). -/

namespace Sys2Proof

/-- The number of a result code (R190). -/
def Code.bits : Code → BitVec 4
  | .ok => 0
  | .incomplete => 1
  | .malformed => 2
  | .checksumMismatch => 3
  | .invalidSignature => 4
  | .staleTimestamp => 5
  | .unknownMessage => 6
  | .ioFailure => 7
  | .bufferTooShort => 8
  | .notReady => 9
  | .illegalCommand => 10

namespace Machine

/-- The number of a receiver state (R22). -/
def RxState.bits : RxState → BitVec 3
  | .seeking => 0
  | .header => 1
  | .payload => 2
  | .checksum => 3
  | .signature => 4
  | .emit => 5
  | .unused6 => 6
  | .unused7 => 7

/-- `in_ready` (R36). -/
def State.inReady (s : State) : Bool := s.rxState != .emit

/-- `frame_valid` (R37). -/
def State.frameValid (s : State) : Bool := s.rxState == .emit

/-- `out_adv_unknown_incompat` (R42): V2, and some bit of RAW[2] other than bit 0 set. -/
def State.advUnknownIncompat (s : State) : Bool :=
  match s.ver with
  | .v1 => false
  | .v2 => s.raw.read 2 &&& ~~~Config.signedMask != 0

/-- The receiver states no rule reaches (R22, U1). -/
def RxState.unused : RxState → Bool
  | .unused6 => true
  | .unused7 => true
  | _ => false

/-- The status codes U5 calls a fault: 4 to 7 and 11 to 15. -/
def statusUnused (c : BitVec 4) : Bool := (decide (4 ≤ c.toNat) && decide (c.toNat ≤ 7)) || decide (11 ≤ c.toNat)

/-- The fault of a state that holds a code no rule reaches (U1, U5; notes/assumptions/5 and 6). Instructions look at it; view reads,
idle steps and the reset input do not (notes/assumptions/23). -/
def State.codeFault (s : State) : Option Fault :=
  if s.rxState.unused then some .rxStateUnused
  else if statusUnused s.status then some .statusUnused
  else none

end Machine

end Sys2Proof
end

