-- ==== Sys2Proof/Machine/Ops.lean ====
section
/-! DEFINITION. The shared operations of the Stream Receiver (42_stream_receiver.md): reporting a result, storing a byte, Consume, Drain, releasing a frame, the reset of every element. The block takes no traps (60_exceptions.md R194): reporting a result code is what it does in place of an exception, and there is no return to model (R195). -/

namespace Sys2Proof.Machine

/-! ### Results -/

/-- `status <- c` (R12, R190, R192): a condition is reported in `status` and changes nothing else. -/
def State.report (s : State) (c : Code) : State := { s with status := c.bits }

/-- Go on to a state, unless the state left holds a code no rule reaches (U1, U5). -/
def guarded (s t : State) : Host.Outcome State Fault Refusal :=
  match s.codeFault with
  | some f => .fault f
  | none => .next t

/-! ### Consume -/

/-- A magic byte opens a candidate (R153). -/
def State.openCandidate (s : State) (v : Version) (b : Byte) : State :=
  { s with ver := v, raw := s.raw.write 0 b, n := 1, crcRun := Config.crcInit, rxState := .header }

/-- `RAW[n] <- b; n <- n + 1` (R154). RAW has no byte at index 280 or above: there nothing is stored, in states no run reaches
(R31; notes/assumptions/4). -/
def State.store (s : State) (b : Byte) : State :=
  { s with raw := if s.n < Config.rawCap then s.raw.write s.n b else s.raw, n := s.n + 1 }

/-- `crc_run <- CrcAccumulate(crc_run, b)` (R154). -/
def State.foldCrc (s : State) (b : Byte) : State := { s with crcRun := crcAccumulate s.crcRun b }

/-- The receiver state after the byte is stored, evaluated with the new `n` (R155). -/
def State.nextRx (s : State) : RxState :=
  match s.rxState with
  | .header => if s.n = s.hdrLen then (if 0 < s.len then .payload else .checksum) else .header
  | .payload => if s.n = s.hdrLen + s.len then .checksum else .payload
  | .checksum => if s.n = s.hdrLen + s.len + Config.ckLen then (if s.signed then .signature else .emit) else .checksum
  | .signature => if s.n = s.total then .emit else .signature
  | other => other

/-- `rx_state` moved on by R155. -/
def State.advance (s : State) : State := { s with rxState := s.nextRx }

/-- `Consume(b)` (R153 to R155). In EMIT and in the states no rule reaches the block takes no byte, so nothing changes; no rule
calls it there. -/
def State.consume (s : State) (b : Byte) : State :=
  match s.rxState with
  | .seeking =>
    match versionOf b with
    | some v => s.openCandidate v b
    | none => s
  | .header => ((s.store b).foldCrc b).advance
  | .payload => ((s.store b).foldCrc b).advance
  | .checksum => (s.store b).advance
  | .signature => (s.store b).advance
  | .emit => s
  | .unused6 => s
  | .unused7 => s

/-! ### Drain -/

/-- `Drain()` (R156) with the queue q: scan its head until it is empty or a frame is held. -/
def State.drainFrom : List Byte → State → State
  | [], s => { s with pq := [] }
  | b :: q, s => if s.rxState = .emit then { s with pq := b :: q } else State.drainFrom q (s.consume b)

/-- `Drain()` (R156). -/
def State.drain (s : State) : State := State.drainFrom s.pq s

/-! ### The effects of the commands -/

/-- PUSH b (R160). -/
def State.push (s : State) (b : Byte) : State :=
  if s.rxState = .emit then s.report .notReady
  else
    let t := s.consume b
    t.report (if t.rxState = .emit then .ok else .incomplete)

/-- The PUSH of each byte of a sequence, in order (R83). -/
def State.pushAll (s : State) (bs : List Byte) : State := bs.foldl State.push s

/-- The verdict of VALIDATE on the held frame (R105) for a given `CRC_XOROUT`. -/
def State.verdict (s : State) (xorOut : Word) (crcExtra : Byte) : Code :=
  if crcFinish xorOut s.crcRun crcExtra = s.receivedChecksum then .ok else .checksumMismatch

/-- VALIDATE crc_extra (R105) for a given `CRC_XOROUT`. -/
def State.validate (s : State) (xorOut : Word) (crcExtra : Byte) : State :=
  if s.rxState = .emit then s.report (s.verdict xorOut crcExtra) else s.report .notReady

/-- `n <- 0; crc_run <- 0xFFFF; rx_state <- SEEKING` (R162, R163). -/
def State.release (s : State) : State := { s with n := 0, crcRun := Config.crcInit, rxState := .seeking }

/-- `PQ <- RAW[1..n] ++ PQ` (R163): every byte of the frame but its magic, ahead of the bytes queued behind it. -/
def State.requeue (s : State) : State := { s with pq := s.raw.slice 1 s.n ++ s.pq }

/-- ACCEPT (R162). -/
def State.accept (s : State) : State :=
  if s.rxState = .emit then s.release.drain.report .ok else s.report .notReady

/-- REJECT (R163). -/
def State.reject (s : State) : State :=
  if s.rxState = .emit then s.requeue.release.drain.report .ok else s.report .notReady

/-- Every state element takes its reset value (R47, R165, R210). What the host has pending is no element of the block and stays
(notes/assumptions/1). -/
def State.resetBlock (s : State) : State := { State.reset with port := s.port }

end Sys2Proof.Machine
end

