-- ==== Sys2Proof/Machine/Receiver.lean ====
section
/-! DEFINITION. The commands of the Stream Receiver family (42_stream_receiver.md R160 to R166) and the pseudo-instruction PUSHS (30_encoding.md R83). -/

namespace Sys2Proof.Machine

/-- NOP (R161): no state element changes. The operand byte is ignored (R70). -/
def execNop (_arg : Byte) (s : State) : Host.Outcome State Fault Refusal := guarded s s

/-- PUSH (R160). -/
def execPush (b : Byte) (s : State) : Host.Outcome State Fault Refusal := guarded s (s.push b)

/-- ACCEPT (R162). The operand byte is ignored (R70). -/
def execAccept (_arg : Byte) (s : State) : Host.Outcome State Fault Refusal := guarded s s.accept

/-- REJECT (R163). The operand byte is ignored (R70). -/
def execReject (_arg : Byte) (s : State) : Host.Outcome State Fault Refusal := guarded s s.reject

/-- ABORT (R165): in every state, also in one no rule reaches, since R212 lets the host use it to bring the block to reset. The
operand byte is ignored (R70). -/
def execAbort (_arg : Byte) (s : State) : Host.Outcome State Fault Refusal := .next s.resetBlock

/-- A reserved opcode (R73, R166). The operand byte is ignored. -/
def execReserved (_op _arg : Byte) (s : State) : Host.Outcome State Fault Refusal := guarded s (s.report .illegalCommand)

/-- PUSHS (R83): the PUSH of each byte, in order (notes/assumptions/10). -/
def execPushs (bytes : List Byte) (s : State) : Host.Outcome State Fault Refusal := guarded s (s.pushAll bytes)

end Sys2Proof.Machine
end

