-- ==== Sys2Proof/Machine/Validate.lean ====
section
/-! DEFINITION. The command of the Checksum Engine family (40_checksum.md R105). -/

namespace Sys2Proof.Machine

/-- VALIDATE (R105), at the `CRC_XOROUT` R8 fixes. -/
def execValidate (crcExtra : Byte) (s : State) : Host.Outcome State Fault Refusal :=
  guarded s (s.validate Config.crcXorOut crcExtra)

end Sys2Proof.Machine
end

