-- ==== Sys2Proof/Machine/WireUnits.lean ====
section
/-! DEFINITION. The units of the wire (42_stream_receiver.md R153, 41_header_codec.md R121, R122, R128). The one way a byte of the wire enters the block is PUSH (20_memory.md R50, R54): a wire unit is the PUSH of each of its bytes in transmission order, in whatever state the block is (notes/assumptions/11). -/

namespace Sys2Proof.Machine

/-- SOF_V1: the byte 0xFE offered to the receiver; it opens a V1 candidate in SEEKING (R153) and is ordinary data inside one
(R160). -/
def execSofV1 (s : State) : Host.Outcome State Fault Refusal := guarded s (s.push Config.magicV1)

/-- SOF_V2: the byte 0xFD offered to the receiver. -/
def execSofV2 (s : State) : Host.Outcome State Fault Refusal := guarded s (s.push Config.magicV2)

/-- NOISE: any other byte offered to the receiver; discarded in SEEKING (R153). -/
def execNoise (b : Byte) (s : State) : Host.Outcome State Fault Refusal := guarded s (s.push b)

/-- V1_FRAME: the bytes of a V1 frame (R74, R121, R164). -/
def execV1Frame (r : FrameRecord) (s : State) : Host.Outcome State Fault Refusal := guarded s (s.pushAll r.wireBytes)

/-- V2_FRAME_UNSIGNED: the bytes of an unsigned V2 frame (R75, R122, R164). -/
def execV2FrameUnsigned (r : FrameRecord) (s : State) : Host.Outcome State Fault Refusal := guarded s (s.pushAll r.wireBytes)

/-- V2_FRAME_SIGNED: the bytes of a signed V2 frame (R75, R76, R128, R164). -/
def execV2FrameSigned (r : FrameRecord) (s : State) : Host.Outcome State Fault Refusal := guarded s (s.pushAll r.wireBytes)

end Sys2Proof.Machine
end

