-- ==== Sys2Proof/Machine/Dispatch.lean ====
section
/-! DEFINITION. One arm for each row of spec/opcode_table.json. -/

namespace Sys2Proof.Machine

def exec (i : Instr) (s : State) : Host.Outcome State Fault Refusal :=
  match i with
  | .nop arg => Sys2Proof.Machine.execNop arg s
  | .push b => Sys2Proof.Machine.execPush b s
  | .validate crcExtra => Sys2Proof.Machine.execValidate crcExtra s
  | .accept arg => Sys2Proof.Machine.execAccept arg s
  | .reject arg => Sys2Proof.Machine.execReject arg s
  | .abort arg => Sys2Proof.Machine.execAbort arg s
  | .reserved op arg => Sys2Proof.Machine.execReserved op arg s
  | .pushs bytes => Sys2Proof.Machine.execPushs bytes s
  | .sofV1 => Sys2Proof.Machine.execSofV1 s
  | .sofV2 => Sys2Proof.Machine.execSofV2 s
  | .noise b => Sys2Proof.Machine.execNoise b s
  | .v1Frame r => Sys2Proof.Machine.execV1Frame r s
  | .v2FrameUnsigned r => Sys2Proof.Machine.execV2FrameUnsigned r s
  | .v2FrameSigned r => Sys2Proof.Machine.execV2FrameSigned r s

end Sys2Proof.Machine
end

