-- ==== Sys2Proof/Machine/Views.lean ====
section
/-! DEFINITION. The output views (10_state.md R36 to R46): the width of each, where it is defined, its value, and what a read outside its domain is. -/

namespace Sys2Proof.Machine

/-- What a read of a w-bit view answers. -/
inductive ReadResult (w : Nat) where
  | value (v : BitVec w)
  | fault (f : Fault)
  | refused (r : Refusal)
deriving DecidableEq, Repr

/-- The width of a view in bits (R36 to R45). -/
def View.width : View → Nat
  | .inReady => 1
  | .frameValid => 1
  | .statusOut => 4
  | .outVersion => 1
  | .outLen => 8
  | .outIncompat => 8
  | .outCompat => 8
  | .outSeq => 8
  | .outSys => 8
  | .outComp => 8
  | .outMsgid => 24
  | .outChecksum => 16
  | .outSigned => 1
  | .outAdvUnknownIncompat => 1
  | .outLinkId => 8
  | .outTimestamp => 48
  | .outSig _ => 8
  | .payload _ => 8
  | .outTotalLen => 9
  | .rawOut _ => 8

/-- The views that are always defined (R36 to R38); every other view is a frame view. -/
def View.alwaysDefined : View → Bool
  | .inReady => true
  | .frameValid => true
  | .statusOut => true
  | _ => false

/-- The views of the signature trailer (R43). -/
def View.ofTrailer : View → Bool
  | .outLinkId => true
  | .outTimestamp => true
  | .outSig _ => true
  | _ => false

/-- The value of a view inside its domain (R36 to R45). -/
def View.value : (v : View) → State → BitVec v.width
  | .inReady, s => BitVec.ofBool s.inReady
  | .frameValid, s => BitVec.ofBool s.frameValid
  | .statusOut, s => s.status
  | .outVersion, s => s.ver.bit
  | .outLen, s => s.raw.read 1
  | .outIncompat, s => s.flagField 2
  | .outCompat, s => s.flagField 3
  | .outSeq, s => s.field 2 4
  | .outSys, s => s.field 3 5
  | .outComp, s => s.field 4 6
  | .outMsgid, s => s.msgid
  | .outChecksum, s => s.receivedChecksum
  | .outSigned, s => BitVec.ofBool s.signed
  | .outAdvUnknownIncompat, s => BitVec.ofBool s.advUnknownIncompat
  | .outLinkId, s => s.raw.read s.trailerOffset
  | .outTimestamp, s => s.timestamp
  | .outSig j, s => s.raw.read (s.trailerOffset + 7 + j.val)
  | .payload i, s => s.payloadByte i
  | .outTotalLen, s => BitVec.ofNat 9 s.total
  | .rawOut i, s => s.raw.read i

/-- Why a read has no value, if it has none: a frame view outside EMIT, a trailer view of an unsigned frame, RAWOUT beyond the
frame (R46). -/
def View.domainFault (v : View) (s : State) : Option Fault :=
  if v.alwaysDefined then none
  else if s.rxState ≠ .emit then some .frameViewOutsideEmit
  else if v.ofTrailer && !s.signed then some .trailerViewUnsigned
  else
    match v with
    | .rawOut i => if i < s.total then none else some .rawOutBeyondFrame
    | _ => none

/-- Whether a view exists: PAYLOAD[i] with i >= 255 names none (R44). -/
def View.named : View → Bool
  | .payload i => decide (i < Config.maxPayload)
  | _ => true

/-- The read of a view (R36 to R46). -/
def View.read (v : View) (s : State) : ReadResult v.width :=
  if v.named then
    match v.domainFault s with
    | some f => .fault f
    | none => .value (v.value s)
  else .refused .payloadIndexNamesNoView

/-- The outcome of the host's read as a step: no state element changes (R56); a read with no value stops
(notes/assumptions/13). DESIGN CHOICE: a state that holds a code no rule reaches (U1, U5) stops no read; views are read there as in
every other state (notes/assumptions/23). -/
def readOutcome (v : View) (s : State) : Host.Outcome State Fault Refusal :=
  match v.read s with
  | .value _ => .next s
  | .fault f => .fault f
  | .refused r => .refused r

end Sys2Proof.Machine
end

