-- ==== Sys2Proof/Machine/Step.lean ====
section
/-! DEFINITION. One step: the host's next act, taken from the head of the port (00_scope.md R2, R3, 20_memory.md R58). -/

namespace Sys2Proof.Machine

/-- A unit the host hands over: decoded, then run. -/
def runUnit (u : PortUnit) (s : State) : Host.Outcome State Fault Refusal :=
  match decode u with
  | .ok i => exec i s
  | .error e => .refused (.unitRejected e)

/-- One act of the host: a unit, the reset input (R210), or the read of a view (R56). -/
def runEvent (e : HostEvent) (s : State) : Host.Outcome State Fault Refusal :=
  match e with
  | .issue u => runUnit u s
  | .reset => .next s.resetBlock
  | .read v => readOutcome v s

/-- One step: the head of the port leaves it and is acted on. With nothing pending the block holds its state (R159, R201;
notes/assumptions/2), also where it holds a code no rule reaches: DESIGN CHOICE, notes/assumptions/23. -/
def step (s : State) : Host.Outcome State Fault Refusal :=
  match s.port with
  | [] => .next s
  | e :: rest => runEvent e { s with port := rest }

/-- The state with the unit of an opcode-table word as the host's next act (notes/assumptions/1 and 12). -/
def State.withFetchWord (s : State) (nbits w : Nat) : State :=
  { s with port := .issue (unitOfTableWord nbits w) :: s.port }

end Sys2Proof.Machine
end

