-- ==== Sys2Proof/Machine/Assembler.lean ====
section
/-! DEFINITION. The host command syntax (30_encoding.md R82, R83): one command a line, written MNEMONIC [operand], the operand a byte literal in hexadecimal or decimal. Text is held as lists of characters. -/

namespace Sys2Proof.Machine

/-- The value of a digit character in a base up to 16. DESIGN CHOICE: the hexadecimal digits are taken in either case
(notes/assumptions/21). -/
def digitOf (base : Nat) (c : Char) : Option Nat :=
  let v :=
    if '0' ≤ c ∧ c ≤ '9' then c.toNat - '0'.toNat
    else if 'a' ≤ c ∧ c ≤ 'f' then c.toNat - 'a'.toNat + 10
    else if 'A' ≤ c ∧ c ≤ 'F' then c.toNat - 'A'.toNat + 10
    else base
  if v < base then some v else none

/-- The digits of a literal read after the value so far. -/
def digitsFrom (base : Nat) : Nat → List Char → Option Nat
  | acc, [] => some acc
  | acc, c :: cs =>
    match digitOf base c with
    | none => none
    | some d => digitsFrom base (acc * base + d) cs

/-- A number literal: `0x..` or decimal (R82), at least one digit. DESIGN CHOICE: the prefix is `0x` in lower case only, and any
number of digits may follow, leading zeros among them (notes/assumptions/21). -/
def literalOf (cs : List Char) : Option Nat :=
  match cs with
  | [] => none
  | '0' :: 'x' :: [] => none
  | '0' :: 'x' :: ds => digitsFrom 16 0 ds
  | ds => digitsFrom 10 0 ds

/-- A byte literal (R82): a number up to 255; a larger one is refused, not truncated: DESIGN CHOICE,
notes/assumptions/21. -/
def byteLiteral (cs : List Char) : Option Byte :=
  match literalOf cs with
  | some v => if v ≤ 255 then some (BitVec.ofNat 8 v) else none
  | none => none

/-- The words of a line: runs of characters other than space, tab and comma; a comma is a word of its own. -/
def tokensFrom : List Char → List Char → List (List Char)
  | cur, [] => if cur.isEmpty then [] else [cur.reverse]
  | cur, c :: cs =>
    if c = ' ' ∨ c = '\t' then (if cur.isEmpty then tokensFrom [] cs else cur.reverse :: tokensFrom [] cs)
    else if c = ',' then (if cur.isEmpty then [','] :: tokensFrom [] cs else cur.reverse :: [','] :: tokensFrom [] cs)
    else tokensFrom (c :: cur) cs

/-- The part of a line before a comment (R82; notes/assumptions/21). -/
def withoutComment (cs : List Char) : List Char := cs.takeWhile fun c => c != ';'

/-- Byte literals with a comma between two of them (R83). -/
def byteList : List (List Char) → Option (List Byte)
  | [] => none
  | [t] => (byteLiteral t).map fun b => [b]
  | t :: c :: ts =>
    if c = [','] then
      match byteLiteral t, byteList ts with
      | some b, some bs => some (b :: bs)
      | _, _ => none
    else none

/-- The commands of one line: none where the line is no command of R82 or R83; a comment or a blank line is no command at all.
Commands with no operand are written with `arg = 0` (R70). -/
def assembleTokens (ts : List (List Char)) : Option (List Instr) :=
  match ts with
  | [] => some []
  | [m] =>
    if m = "NOP".toList then some [.nop 0]
    else if m = "ACCEPT".toList then some [.accept 0]
    else if m = "REJECT".toList then some [.reject 0]
    else if m = "ABORT".toList then some [.abort 0]
    else none
  | m :: operands =>
    if m = "PUSH".toList then
      match operands with
      | [t] => (byteLiteral t).map fun b => [.push b]
      | _ => none
    else if m = "VALIDATE".toList then
      match operands with
      | [t] => (byteLiteral t).map fun b => [.validate b]
      | _ => none
    else if m = "PUSHS".toList then (byteList operands).map fun bs => bs.map .push
    else none

/-- One line of a host program (R82). -/
def assembleLine (line : String) : Option (List Instr) := assembleTokens (tokensFrom [] (withoutComment line.toList))

/-- A host program (R82): its lines in order. -/
def assemble : List String → Option (List Instr)
  | [] => some []
  | l :: ls =>
    match assembleLine l, assemble ls with
    | some a, some b => some (a ++ b)
    | _, _ => none

end Sys2Proof.Machine
end

