-- ==== Sys2Proof/Machine/HeaderCodec.lean ====
section
/-! DEFINITION. The encode direction of the Header Codec, reference functions that are no commands of the block (41_header_codec.md R131 to R133). A refused record has no result (none). -/

namespace Sys2Proof.Machine

/-- `HeaderEncode` (R131): refuses a length above 255, and for V1 a message id above 255 or a non-zero flag byte. -/
def headerEncode (h : Header) (v : Version) : Option (List Byte) :=
  if 255 < h.len then none
  else
    match v with
    | .v1 =>
      if 255 < h.msgid.toNat ∨ h.incompat ≠ 0 ∨ h.compat ≠ 0 then none
      else some [Config.magicV1, BitVec.ofNat 8 h.len, h.seq, h.sys, h.comp, byteOf h.msgid 0]
    | .v2 =>
      some [Config.magicV2, BitVec.ofNat 8 h.len, h.incompat, h.compat, h.seq, h.sys, h.comp, byteOf h.msgid 0,
        byteOf h.msgid 1, byteOf h.msgid 2]

/-- The loop of Trim on a payload read from its end: drop zero bytes while more than one byte is left (R133). -/
def dropTrailingZeros : List Byte → List Byte
  | [] => []
  | [b] => [b]
  | b :: c :: rest => if b = 0 then dropTrailingZeros (c :: rest) else b :: c :: rest

/-- `Trim` (R133): trailing zero bytes go, the first byte never. -/
def trim (p : List Byte) : List Byte := (dropTrailingZeros p.reverse).reverse

/-- The payload FrameEncode transmits (R132): trimmed for V2 where the caller asks, as it is for V1. -/
def transmittedPayload (r : FrameRecord) (doTrim : Bool) : List Byte :=
  match r.version with
  | .v1 => r.payload
  | .v2 => if doTrim then trim r.payload else r.payload

/-- The `incompat` byte FrameEncode transmits (R132): bit 0 says whether there is a signature. A V1 record keeps its own byte,
which HeaderEncode refuses unless it is 0 (D16; DEDUCED, notes/assumptions/19). -/
def transmittedIncompat (r : FrameRecord) : Byte :=
  match r.version with
  | .v1 => r.incompat
  | .v2 => (r.incompat &&& ~~~Config.signedMask) ||| (if r.sig.isSome then Config.signedMask else 0)

/-- `FrameEncode` (R132) for a given `CRC_XOROUT`. A V1 record with a signature is refused (R130). -/
def frameEncodeWith (xorOut : Word) (r : FrameRecord) (crcExtra : Byte) (doTrim : Bool) : Option (List Byte) :=
  if r.version = .v1 ∧ r.sig.isSome then none
  else
    let p := transmittedPayload r doTrim
    let h : Header :=
      { len := p.length, incompat := transmittedIncompat r, compat := r.compat, seq := r.seq, sys := r.sys, comp := r.comp,
        msgid := r.msgid }
    match headerEncode h r.version with
    | none => none
    | some hdr =>
      let ck := checksumWith xorOut (hdr.drop 1 ++ p) crcExtra
      some (hdr ++ p ++ [byteOf ck 0, byteOf ck 1] ++
        match r.sig with
        | none => []
        | some t => t.bytes)

/-- `FrameEncode` (R132) at the `CRC_XOROUT` R8 fixes. -/
def frameEncode (r : FrameRecord) (crcExtra : Byte) (doTrim : Bool) : Option (List Byte) :=
  frameEncodeWith Config.crcXorOut r crcExtra doTrim

/-- `Frame::validate_checksum` (R106): the full recomputation on a buffer-level frame, for a given `CRC_XOROUT`. -/
def frameChecksumMatchesWith (xorOut : Word) (frame : List Byte) (crcExtra : Byte) : Bool :=
  match frameDecode frame with
  | .error _ => false
  | .ok (r, _) => checksumWith xorOut (checksumBody frame r.version.hdrLen r.len.toNat) crcExtra == r.checksum

/-- `Frame::validate_checksum` (R106) at the `CRC_XOROUT` R8 fixes. -/
def frameChecksumMatches (frame : List Byte) (crcExtra : Byte) : Bool :=
  frameChecksumMatchesWith Config.crcXorOut frame crcExtra

end Sys2Proof.Machine
end

