-- ==== Sys2Proof/Safety.lean ====
section
/-! DEFINITION. The terms the statements use: the invariants of 10_state.md R29 to R32, reachable states, states that differ only in what no rule reads, the host programs of 42_stream_receiver.md R167, and the reference scan of a byte stream they are compared with. -/

namespace Sys2Proof.Machine

/-! ### Invariants -/

/-- No code of `rx_state` or `status` that U1 or U5 calls a fault. -/
def State.codesLegal (s : State) : Prop := s.codeFault = none

/-- State and count agree (R29). -/
def State.countAgrees (s : State) : Prop :=
  match s.rxState with
  | .seeking => s.n = 0
  | .header => 1 ≤ s.n ∧ s.n < s.hdrLen
  | .payload => s.hdrLen ≤ s.n ∧ s.n < s.hdrLen + s.len
  | .checksum => s.hdrLen + s.len ≤ s.n ∧ s.n < s.hdrLen + s.len + 2
  | .signature => s.hdrLen + s.len + 2 ≤ s.n ∧ s.n < s.total
  | .emit => s.n = s.total
  | .unused6 => False
  | .unused7 => False

/-- The replay queue is empty outside EMIT (R30). -/
def State.queueEmptyOutsideEmit (s : State) : Prop := s.rxState ≠ .emit → s.pq = []

/-- Bounded storage (R31). -/
def State.storageBounded (s : State) : Prop := s.n + s.pq.length ≤ 280

/-- How many bytes of RAW the running CRC has reached (R32): `min(n, H + len)`, where `H + len` counts as infinite while n < 2. -/
def State.crcReach (s : State) : Nat := if s.n < 2 then s.n else min s.n (s.hdrLen + s.len)

/-- CRC agreement (R32). -/
def State.crcAgrees (s : State) : Prop :=
  if s.rxState = .seeking then s.crcRun = 0xFFFF else s.crcRun = crcCompute (s.raw.slice 1 s.crcReach)

/-- RAW[0] is the candidate's magic byte (R24). -/
def State.magicHeld (s : State) : Prop := s.rxState ≠ .seeking → s.raw.read 0 = s.ver.magic

/-- The codes the block's status register can hold (R190). -/
def State.statusProduced (s : State) : Prop :=
  s.status = 0 ∨ s.status = 1 ∨ s.status = 3 ∨ s.status = 9 ∨ s.status = 10

/-- The invariant of the block: R29 to R32, the magic byte of R24, the status codes of R190, and RAW in canonical form. -/
structure State.Inv (s : State) : Prop where
  countAgrees : s.countAgrees
  queueEmptyOutsideEmit : s.queueEmptyOutsideEmit
  storageBounded : s.storageBounded
  crcAgrees : s.crcAgrees
  magicHeld : s.magicHeld
  statusProduced : s.statusProduced
  rawWf : s.raw.wf = true

/-- The states a run from reset can reach, whatever the host does: it may replace what it has pending at any time, since the port
is its own (R3). -/
inductive Reachable : State → Prop where
  | reset : Reachable State.reset
  | host (s : State) (p : List HostEvent) : Reachable s → Reachable { s with port := p }
  | step (s t : State) : Reachable s → Sys2Proof.Machine.step s = .next t → Reachable t

/-! ### What no rule reads -/

/-- Two states that agree but for RAW at index n and above (R24, U2) and, in SEEKING, `ver` (R23, U12). -/
structure State.SameObservable (s t : State) : Prop where
  rxState : s.rxState = t.rxState
  ver : s.rxState ≠ .seeking → s.ver = t.ver
  n : s.n = t.n
  raw : ∀ i, i < s.n → s.raw.read i = t.raw.read i
  crcRun : s.crcRun = t.crcRun
  pq : s.pq = t.pq
  status : s.status = t.status
  port : s.port = t.port

/-- Two outcomes that stop for the same reason, or go on to states with the relation R between them. -/
def outcomesRelated (R : State → State → Prop) : (a b : Host.Outcome State Fault Refusal) → Prop
  | .next s, .next t => R s t
  | .fault f, .fault g => f = g
  | .refused p, .refused q => p = q
  | _, _ => False

/-- Two states that agree in all that steers the receiver (R158): its state, the version, the count, the length byte once it is
in, and bit 0 of the V2 `incompat_flags` once it is in. -/
structure State.SameSteering (s t : State) : Prop where
  rxState : s.rxState = t.rxState
  ver : s.ver = t.ver
  n : s.n = t.n
  len : 2 ≤ s.n → s.raw.read 1 = t.raw.read 1
  signed : 3 ≤ s.n → s.signed = t.signed

/-- The steps of the chain SEEKING, HEADER, PAYLOAD, CHECKSUM, SIGNATURE, EMIT one byte can take (R151): stay, go on to the next
state, skip PAYLOAD, or skip SIGNATURE. -/
def chainStep : RxState → RxState → Prop
  | .seeking, q => q = .seeking ∨ q = .header
  | .header, q => q = .header ∨ q = .payload ∨ q = .checksum
  | .payload, q => q = .payload ∨ q = .checksum
  | .checksum, q => q = .checksum ∨ q = .signature ∨ q = .emit
  | .signature, q => q = .signature ∨ q = .emit
  | .emit, q => q = .emit
  | .unused6, _ => False
  | .unused7, _ => False

/-! ### The views of a held frame -/

/-- Every frame view of a state reads the matching field of a record whose bytes on the wire are given (R164; R39 to R45). -/
structure viewsShow (r : FrameRecord) (bytes : List Byte) (s : State) : Prop where
  version : View.read .outVersion s = .value r.version.bit
  len : View.read .outLen s = .value r.len
  incompat : View.read .outIncompat s = .value r.incompat
  compat : View.read .outCompat s = .value r.compat
  seq : View.read .outSeq s = .value r.seq
  sys : View.read .outSys s = .value r.sys
  comp : View.read .outComp s = .value r.comp
  msgid : View.read .outMsgid s = .value r.msgid
  checksum : View.read .outChecksum s = .value r.checksum
  signed : View.read .outSigned s = .value (BitVec.ofBool r.sig.isSome)
  linkId : ∀ t, r.sig = some t → View.read .outLinkId s = .value t.linkId
  timestamp : ∀ t, r.sig = some t → View.read .outTimestamp s = .value t.timestamp
  signature : ∀ t j, r.sig = some t → View.read (.outSig j) s = .value t.signature[j]
  advisory : View.read .outAdvUnknownIncompat s =
    .value (BitVec.ofBool (decide (r.version = .v2) && (r.incompat &&& 0xFE != 0)))
  payload : ∀ i, i < 255 → View.read (.payload i) s = .value (r.payload.getD i 0)
  totalLen : View.read .outTotalLen s = .value (BitVec.ofNat 9 bytes.length)
  rawOut : ∀ i, i < bytes.length → View.read (.rawOut i) s = .value (bytes.getD i 0)

/-! ### Host programs and the reference scan -/

/-- While a frame is held: keep it (ACCEPT) or not (REJECT), as the host's policy says; the frames kept, in order. None where a
command does not complete, or where a frame is still held when the count runs out. -/
def serviceFrames (keep : State → Bool) : Nat → State → Option (State × List (List Byte))
  | 0, s => if s.rxState = .emit then none else some (s, [])
  | k + 1, s =>
    if s.rxState = .emit then
      match exec (if keep s then .accept 0 else .reject 0) s with
      | .next t =>
        match serviceFrames keep k t with
        | some (u, fs) => some (u, if keep s then s.held :: fs else fs)
        | none => none
      | .fault _ => none
      | .refused _ => none
    else some (s, [])

/-- The host program of R167: PUSH each byte of a stream and service the frames held before the next PUSH (R213, R214). The
answer is the last state and the frames kept, in order. -/
def hostRun (keep : State → Bool) : List Byte → State → Option (State × List (List Byte))
  | [], s => some (s, [])
  | b :: bs, s =>
    match exec (.push b) s with
    | .next t =>
      match serviceFrames keep (Config.rawCap + 1) t with
      | some (u, fs) =>
        match hostRun keep bs u with
        | some (v, gs) => some (v, fs ++ gs)
        | none => none
      | none => none
    | .fault _ => none
    | .refused _ => none

/-- The frames a policy keeps when a buffer is scanned from its start with FrameDecode (R127): a byte that starts no frame is
skipped, a frame kept is left whole, a frame not kept is left one byte after its magic (R163), an incomplete frame ends the scan.
The count bounds the scan. -/
def referenceScan (keep : List Byte → Bool) : Nat → List Byte → List (List Byte)
  | 0, _ => []
  | _ + 1, [] => []
  | k + 1, b :: bs =>
    match frameDecode (b :: bs) with
    | .ok (_, consumed) =>
      if keep ((b :: bs).take consumed) then
        (b :: bs).take consumed :: referenceScan keep k ((b :: bs).drop consumed)
      else referenceScan keep k bs
    | .error .malformed => referenceScan keep k bs
    | .error _ => []

/-- The host's use of VALIDATE (R105): the status it reads after VALIDATE with the `crc_extra` it knows for the message id on
the views (R9). -/
def validateSays (extraOf : BitVec 24 → Byte) (s : State) : Bool :=
  match exec (.validate (extraOf s.msgid)) s with
  | .next t => t.status == 0
  | .fault _ => false
  | .refused _ => false

/-- The same verdict on a frame in a buffer (R106). -/
def frameSays (extraOf : BitVec 24 → Byte) (frame : List Byte) : Bool :=
  match frameDecode frame with
  | .ok (r, _) => frameChecksumMatches frame (extraOf r.msgid)
  | .error _ => false

/-- A sequence that is exactly one frame (R127). -/
def isFrame (bytes : List Byte) : Prop := ∃ r, frameDecode bytes = .ok (r, bytes.length)

/-- A sequence with no magic byte in it (R167). -/
def noMagic (bytes : List Byte) : Prop := ∀ b, b ∈ bytes → b ≠ Config.magicV1 ∧ b ≠ Config.magicV2

end Sys2Proof.Machine
end

