-- ==== Sys2Proof/Certificates/Slice0/Obligations.lean ====
section
/-! DEFINITION. The statements about the model, for the provers. -/

open Sys2Proof Sys2Proof.Machine

/-! ### Encoding -/

/-- For every well-formed instruction the decoder reads back what the encoder wrote, every operand at every value (R70, R71, R74
to R76, R83). -/
def Obligations.DecodeOfEncodeIsTheInstruction : Prop :=
  ∀ i : Instr, i.wellFormed = true → decode (encode i) = .ok i

/-- Whatever unit decodes, decodes to a well-formed instruction whose encoding is that very unit: no bit of a unit is dropped
(R70, R71, R73 to R76, R83). It rests on the model's choices that the operand byte a command ignores is kept (log 9), that the words
of a PUSHS are one unit (log 10) and that a frame unit is exactly one frame (log 20). -/
def Obligations.EncodeOfDecodeIsTheUnit : Prop :=
  ∀ (u : PortUnit) (i : Instr), decode u = .ok i → encode i = u ∧ i.wellFormed = true

/-- Every 16-bit command word decodes, by its low byte alone (R70, R71, R73). -/
def Obligations.CommandWordDecodesByItsOpcode : Prop :=
  ∀ w : Word,
    (w.extractLsb' 0 8 = 0x00 → decode (.command w) = .ok (.nop (w.extractLsb' 8 8))) ∧
    (w.extractLsb' 0 8 = 0x01 → decode (.command w) = .ok (.push (w.extractLsb' 8 8))) ∧
    (w.extractLsb' 0 8 = 0x02 → decode (.command w) = .ok (.validate (w.extractLsb' 8 8))) ∧
    (w.extractLsb' 0 8 = 0x03 → decode (.command w) = .ok (.accept (w.extractLsb' 8 8))) ∧
    (w.extractLsb' 0 8 = 0x04 → decode (.command w) = .ok (.reject (w.extractLsb' 8 8))) ∧
    (w.extractLsb' 0 8 = 0x05 → decode (.command w) = .ok (.abort (w.extractLsb' 8 8))) ∧
    (6 ≤ (w.extractLsb' 0 8).toNat → decode (.command w) = .ok (.reserved (w.extractLsb' 0 8) (w.extractLsb' 8 8)))

/-- Words and bytes written out from R82, R83, R153 and frame F6 of the spec's vectors decode to what they stand for. -/
def Obligations.SpecWordsDecode : Prop :=
  decode (.command 0x0000) = .ok (.nop 0) ∧
  decode (.command 0xFE01) = .ok (.push 0xFE) ∧
  decode (.command 0x3202) = .ok (.validate 0x32) ∧
  decode (.command 0x0003) = .ok (.accept 0) ∧
  decode (.command 0x0004) = .ok (.reject 0) ∧
  decode (.command 0x0005) = .ok (.abort 0) ∧
  decode (.command 0x1206) = .ok (.reserved 0x06 0x12) ∧
  decode (.commands [0x0001, 0x5501, 0xFF01]) = .ok (.pushs [0x00, 0x55, 0xFF]) ∧
  decode (.wireByte 0xFE) = .ok .sofV1 ∧
  decode (.wireByte 0xFD) = .ok .sofV2 ∧
  decode (.wireByte 0x55) = .ok (.noise 0x55) ∧
  decode (.wireFrame [0xFE, 0x00, 0xFF, 0x09, 0x08, 0x07, 0x02, 0x9F]) =
    .ok (.v1Frame
      { version := .v1, len := 0, incompat := 0, compat := 0, seq := 255, sys := 9, comp := 8, msgid := 7, payload := [],
        checksum := 0x9F02, sig := none })

/-- The host syntax (R82, R83): the lines of R82 as the words R82 gives for them, a comment line as nothing, PUSHS as its PUSHes.
That a byte literal above 255 is refused ("PUSH 256") and that hexadecimal digits are read in either case ("0xff") are the model's
choices (log 21). -/
def Obligations.HostSyntaxAssembles : Prop :=
  (assembleLine "PUSH 0xFE").map (·.map encode) = some [.command 0xFE01] ∧
  (assembleLine "VALIDATE 0x32").map (·.map encode) = some [.command 0x3202] ∧
  (assembleLine "VALIDATE 50").map (·.map encode) = some [.command 0x3202] ∧
  (assembleLine "ACCEPT").map (·.map encode) = some [.command 0x0003] ∧
  (assembleLine "REJECT").map (·.map encode) = some [.command 0x0004] ∧
  (assembleLine "ABORT").map (·.map encode) = some [.command 0x0005] ∧
  (assembleLine "NOP").map (·.map encode) = some [.command 0x0000] ∧
  assembleLine "; a comment" = some [] ∧
  assembleLine "PUSHS 0x00, 85, 0xff" = some [.push 0x00, .push 0x55, .push 0xFF] ∧
  assembleLine "PUSH 256" = none

/-! ### The step -/

/-- A step runs the decoded instruction on the state whose port has lost the unit; a unit that does not decode is refused by
name. That the host's commands stand in the list `port` is the model's choice (log 1), and so is the refusal of a unit that is no
unit of the opcode table (logs 10 and 20). -/
def Obligations.StepRunsTheDecodedInstruction : Prop :=
  ∀ (s : State) (u : PortUnit) (rest : List HostEvent),
    s.port = .issue u :: rest →
    (∀ i, decode u = .ok i → step s = exec i { s with port := rest }) ∧
    (∀ e, decode u = .error e → step s = .refused (.unitRejected e))

/-- A step that hands over no command changes no state element: with nothing pending it answers the same state (R159, R201; the
model's reading, log 2); a read of a view leaves the state but for the read itself (R56), or stops where the read has no value (R46;
that the read stops the run is the model's choice, log 13). Both hold in every state, also in one that holds a code no rule reaches,
which is the model's choice (log 23). -/
def Obligations.StepWithoutACommandChangesNoState : Prop :=
  (∀ s : State, s.port = [] → step s = .next s) ∧
  ∀ (s : State) (v : View) (rest : List HostEvent), s.port = .read v :: rest →
    (∀ x, v.read { s with port := rest } = .value x → step s = .next { s with port := rest }) ∧
    (∀ f, v.read { s with port := rest } = .fault f → step s = .fault f) ∧
    (∀ r, v.read { s with port := rest } = .refused r → step s = .refused r)

/-- The one stop of an instruction (U1, U5): in a state whose rx_state is 6 or 7 every instruction but ABORT answers fault
rxStateUnused; where rx_state is legal and status is 4 to 7 or 11 to 15, fault statusUnused. That the rx_state is looked at first,
and that ABORT still runs, are the model's choices (logs 5 and 6). In every other state every instruction completes. -/
def Obligations.UnusedCodesStopEveryInstructionButAbort : Prop :=
  ∀ (s : State) (i : Instr),
    (s.rxState = .unused6 ∨ s.rxState = .unused7 → (∀ a, i ≠ .abort a) → exec i s = .fault .rxStateUnused) ∧
    (s.rxState ≠ .unused6 → s.rxState ≠ .unused7 → (4 ≤ s.status.toNat ∧ s.status.toNat ≤ 7) ∨ 11 ≤ s.status.toNat →
      (∀ a, i ≠ .abort a) → exec i s = .fault .statusUnused) ∧
    (s.rxState ≠ .unused6 → s.rxState ≠ .unused7 → s.status.toNat ≤ 3 ∨ (8 ≤ s.status.toNat ∧ s.status.toNat ≤ 10) →
      ∃ t, exec i s = .next t)

/-! ### Reset and ABORT -/

/-- The reset state and its views (R47). RAW is not named: the spec leaves it unspecified. -/
def Obligations.ResetStateHasTheSpecValues : Prop :=
  State.reset.rxState = .seeking ∧ State.reset.ver = .v1 ∧ State.reset.n = 0 ∧ State.reset.crcRun = 0xFFFF ∧
  State.reset.pq = [] ∧ State.reset.status = 0 ∧
  View.read .inReady State.reset = .value 1 ∧ View.read .frameValid State.reset = .value 0 ∧
  View.read .statusOut State.reset = .value 0 ∧
  ∀ v : View, v.alwaysDefined = false → v.named = true → View.read v State.reset = .fault .frameViewOutsideEmit

/-- ABORT in every state, whatever its operand byte: every element the spec gives a reset value takes it (R165, R47). RAW is not
named: its reset value is unspecified. -/
def Obligations.AbortTakesTheResetValues : Prop :=
  ∀ (s : State) (arg : Byte), encode (.abort arg) = .command (arg ++ (0x05 : Byte)) ∧
    ∃ t, exec (.abort arg) s = .next t ∧ t.rxState = .seeking ∧ t.ver = .v1 ∧ t.n = 0 ∧ t.crcRun = 0xFFFF ∧ t.pq = [] ∧
      t.status = 0 ∧ t.port = s.port

/-- The reset input and ABORT leave the same state, whatever state the block was in (R210, R211). -/
def Obligations.ResetInputAndAbortAgree : Prop :=
  ∀ (s : State) (arg : Byte) (rest : List HostEvent),
    step { s with port := .reset :: rest } = exec (.abort arg) { s with port := rest } ∧
    ∃ t, step { s with port := .reset :: rest } = .next t

/-! ### NOP, reserved opcodes, VALIDATE -/

/-- NOP changes nothing, status included, in every state and whatever its operand byte (R161). -/
def Obligations.NopChangesNothing : Prop :=
  ∀ (s : State) (arg : Byte), s.codesLegal →
    encode (.nop arg) = .command (arg ++ (0x00 : Byte)) ∧ exec (.nop arg) s = .next s

/-- A reserved opcode sets status 10 and nothing else, in every state and whatever its operand byte (R73, R166). -/
def Obligations.ReservedOpcodeOnlyReports : Prop :=
  ∀ (s : State) (op arg : Byte), s.codesLegal → 6 ≤ op.toNat →
    decode (.command (arg ++ op)) = .ok (.reserved op arg) ∧
    exec (.reserved op arg) s = .next { s with status := 10 }

/-- VALIDATE (R105): outside EMIT status 9; in EMIT the running CRC with `crc_extra` folded in, XORed with CRC_XOROUT = 0, against
the two checksum bytes; nothing but status changes. -/
def Obligations.ValidateComparesTheRunningCrc : Prop :=
  ∀ (s : State) (x : Byte), s.codesLegal →
    encode (.validate x) = .command (x ++ (0x02 : Byte)) ∧
    (s.rxState ≠ .emit → exec (.validate x) s = .next { s with status := 9 }) ∧
    (s.rxState = .emit →
      crcAccumulate s.crcRun x ^^^ (0x0000 : Word) =
        ((s.raw.read (s.hdrLen + s.len)).zeroExtend 16 ||| ((s.raw.read (s.hdrLen + s.len + 1)).zeroExtend 16 <<< 8)) →
      exec (.validate x) s = .next { s with status := 0 }) ∧
    (s.rxState = .emit →
      crcAccumulate s.crcRun x ^^^ (0x0000 : Word) ≠
        ((s.raw.read (s.hdrLen + s.len)).zeroExtend 16 ||| ((s.raw.read (s.hdrLen + s.len + 1)).zeroExtend 16 <<< 8)) →
      exec (.validate x) s = .next { s with status := 3 })

/-- In every state of the invariant that holds a frame, VALIDATE agrees with recomputing the checksum over the frame's bytes (R106,
R104), and with the check of the frame in a buffer. -/
def Obligations.ValidateAgreesWithRecomputation : Prop :=
  ∀ (s : State) (x : Byte), s.Inv → s.rxState = .emit →
    s.crcRun = crcCompute (s.raw.slice 1 (s.hdrLen + s.len)) ∧
    exec (.validate x) s =
      .next { s with status := if checksum (s.raw.slice 1 (s.hdrLen + s.len)) x = s.receivedChecksum then 0 else 3 } ∧
    (frameChecksumMatches s.held x = true ↔ checksum (s.raw.slice 1 (s.hdrLen + s.len)) x = s.receivedChecksum)

/-! ### PUSH -/

/-- PUSH (R160): status 9 and nothing else in EMIT, so the byte is not taken; elsewhere Consume, and status 0 exactly when a frame
is then held, else 1. What Consume does is said by the two statements after this one. -/
def Obligations.PushConsumesUnlessAFrameIsHeld : Prop :=
  ∀ (s : State) (b : Byte), s.codesLegal →
    encode (.push b) = .command (b ++ (0x01 : Byte)) ∧
    (s.rxState = .emit → exec (.push b) s = .next { s with status := 9 }) ∧
    (s.rxState ≠ .emit →
      exec (.push b) s = .next { s.consume b with status := if (s.consume b).rxState = .emit then 0 else 1 })

/-- A byte offered in SEEKING (R153), as PUSH and as a unit of the wire: 0xFE opens a V1 candidate, 0xFD a V2 candidate, any other
byte is discarded; the status is PUSH's (R160). That SOF_V1, SOF_V2 and NOISE act as the PUSH of their byte is the model's reading
(log 11). -/
def Obligations.SeekingOpensACandidateOnAMagicByte : Prop :=
  ∀ s : State, s.codesLegal → s.rxState = .seeking →
    (∀ i, i = Instr.push 0xFE ∨ i = Instr.sofV1 →
      exec i s = .next { s with ver := .v1, raw := s.raw.write 0 0xFE, n := 1, crcRun := 0xFFFF, rxState := .header, status := 1 }) ∧
    (∀ i, i = Instr.push 0xFD ∨ i = Instr.sofV2 →
      exec i s = .next { s with ver := .v2, raw := s.raw.write 0 0xFD, n := 1, crcRun := 0xFFFF, rxState := .header, status := 1 }) ∧
    (∀ b i, b ≠ 0xFE → b ≠ 0xFD → i = Instr.push b ∨ i = Instr.noise b → exec i s = .next { s with status := 1 })

/-- A byte offered inside a candidate (R154, R155), be it a magic byte or not: stored at index n, counted, folded into the CRC in
HEADER and PAYLOAD only, and the receiver moves on by the counts of the header, the payload, the checksum and the trailer, all
read from the state after the byte is stored; the status is PUSH's (R160). The premise n < 280 holds in every reachable state (R31).
That SOF_V1, SOF_V2 and NOISE act as the PUSH of their byte inside a candidate too is the model's reading (log 11). -/
def Obligations.CandidateByteIsStoredAndCounted : Prop :=
  ∀ (s : State) (b : Byte) (i : Instr), s.codesLegal → s.n < 280 →
    s.rxState = .header ∨ s.rxState = .payload ∨ s.rxState = .checksum ∨ s.rxState = .signature →
    (i = .push b ∨ (i = .sofV1 ∧ b = 0xFE) ∨ (i = .sofV2 ∧ b = 0xFD) ∨ i = .noise b) →
    ∃ t, exec i s = .next t ∧
      t.raw = s.raw.write s.n b ∧ t.n = s.n + 1 ∧ t.ver = s.ver ∧ t.pq = s.pq ∧ t.port = s.port ∧
      (s.rxState = .header ∨ s.rxState = .payload → t.crcRun = crcAccumulate s.crcRun b) ∧
      (s.rxState = .checksum ∨ s.rxState = .signature → t.crcRun = s.crcRun) ∧
      (s.rxState = .header → t.rxState = if t.n = t.hdrLen then (if 0 < t.len then .payload else .checksum) else .header) ∧
      (s.rxState = .payload → t.rxState = if t.n = t.hdrLen + t.len then .checksum else .payload) ∧
      (s.rxState = .checksum →
        t.rxState = if t.n = t.hdrLen + t.len + 2 then (if t.signed then .signature else .emit) else .checksum) ∧
      (s.rxState = .signature → t.rxState = if t.n = t.total then .emit else .signature) ∧
      t.status = if t.rxState = .emit then 0 else 1

/-- Consume is total and never reports corruption (R157): outside EMIT every byte has one successor, and the status is OK or
INCOMPLETE, OK exactly when a frame is held. -/
def Obligations.PushNeverReportsCorruption : Prop :=
  ∀ (s : State) (b : Byte), s.codesLegal → s.rxState ≠ .emit →
    ∃ t, exec (.push b) s = .next t ∧ (t.status = 0 ∨ t.status = 1) ∧ (t.status = 0 ↔ t.rxState = .emit) ∧ t.codesLegal

/-- One byte moves the receiver along the chain SEEKING, HEADER, PAYLOAD, CHECKSUM, SIGNATURE, EMIT and nowhere else; and over
every instruction, the receiver comes back to SEEKING only by ACCEPT or REJECT of a held frame, or by ABORT (R151). -/
def Obligations.PushFollowsTheChainOfStates : Prop :=
  (∀ (s t : State) (b : Byte), exec (.push b) s = .next t → chainStep s.rxState t.rxState) ∧
  ∀ (s t : State) (i : Instr), exec i s = .next t → s.rxState ≠ .seeking → t.rxState = .seeking →
    (s.rxState = .emit ∧ ∃ a, i = .accept a ∨ i = .reject a) ∨ ∃ a, i = .abort a

/-- The only bytes that steer the receiver are the magic byte, the length byte and bit 0 of the V2 flags (R158): two states that
agree in those, offered bytes that agree where they steer, move to states that agree in those. -/
def Obligations.OnlyMagicLengthAndSignedBitSteer : Prop :=
  ∀ (s t s' t' : State) (b c : Byte), s.raw.wf = true → t.raw.wf = true → s.SameSteering t →
    (s.rxState = .seeking → versionOf b = versionOf c) →
    (s.rxState ≠ .seeking → s.n = 1 → b = c) →
    (s.rxState ≠ .seeking → s.n = 2 → s.ver = .v2 → b.getLsbD 0 = c.getLsbD 0) →
    exec (.push b) s = .next s' → exec (.push c) t = .next t' → s'.SameSteering t' ∧ s'.status = t'.status

/-! ### ACCEPT, REJECT, Drain -/

/-- ACCEPT (R162, R156): status 9 outside EMIT; in EMIT the frame is released and the queue scanned byte by byte until it is empty
or the next frame is held, no longer, and what was not scanned stays queued. The operand byte is ignored. -/
def Obligations.AcceptReleasesTheFrameAndDrains : Prop :=
  ∀ (s : State) (arg : Byte), s.codesLegal →
    encode (.accept arg) = .command (arg ++ (0x03 : Byte)) ∧
    (s.rxState ≠ .emit → exec (.accept arg) s = .next { s with status := 9 }) ∧
    (s.rxState = .emit → ∃ k : Nat, k ≤ s.pq.length ∧
      let released : State := { s with n := 0, crcRun := 0xFFFF, rxState := .seeking }
      let scanned : Nat → State := fun j => (s.pq.take j).foldl State.consume released
      exec (.accept arg) s = .next { scanned k with pq := s.pq.drop k, status := 0 } ∧
      ((scanned k).rxState = .emit ∨ k = s.pq.length) ∧
      ∀ j, j < k → (scanned j).rxState ≠ .emit)

/-- REJECT (R163, R156): status 9 outside EMIT; in EMIT every byte of the frame but its magic goes back ahead of the queue, and the
queue is scanned as for ACCEPT. The operand byte is ignored. -/
def Obligations.RejectReplaysAllButTheMagic : Prop :=
  ∀ (s : State) (arg : Byte), s.codesLegal →
    encode (.reject arg) = .command (arg ++ (0x04 : Byte)) ∧
    (s.rxState ≠ .emit → exec (.reject arg) s = .next { s with status := 9 }) ∧
    (s.rxState = .emit →
      let queue : List Byte := s.held.drop 1 ++ s.pq
      let released : State := { s with n := 0, crcRun := 0xFFFF, rxState := .seeking }
      let scanned : Nat → State := fun j => (queue.take j).foldl State.consume released
      ∃ k : Nat, k ≤ queue.length ∧
        exec (.reject arg) s = .next { scanned k with pq := queue.drop k, status := 0 } ∧
        ((scanned k).rxState = .emit ∨ k = queue.length) ∧
        ∀ j, j < k → (scanned j).rxState ≠ .emit)

/-- After ACCEPT with nothing queued the frame is gone: REJECT and VALIDATE give NOT_READY (R214). -/
def Obligations.AfterAcceptNothingCanBeRejected : Prop :=
  ∀ (s : State) (a c x : Byte), s.codesLegal → s.rxState = .emit → s.pq = [] →
    ∃ t, exec (.accept a) s = .next t ∧ t.rxState = .seeking ∧ t.n = 0 ∧
      exec (.reject c) t = .next { t with status := 9 } ∧ exec (.validate x) t = .next { t with status := 9 }

/-! ### PUSHS and the units of the wire -/

/-- PUSHS b0, ..., bk completes, and is PUSH b0 and then the rest (R83; that the model makes one step of it is its choice, log
10). -/
def Obligations.PushsIsThePushOfEachByte : Prop :=
  ∀ (s : State) (b : Byte) (bs : List Byte), s.codesLegal →
    (∃ t, exec (.push b) s = .next t ∧ t.codesLegal ∧
      exec (.pushs (b :: bs)) s = if bs = [] then .next t else exec (.pushs bs) t) ∧
    ∃ u, exec (.pushs (b :: bs)) s = .next u ∧ u.codesLegal

/-- A unit of the wire acts as the PUSH of its bytes in transmission order (the model's reading, log 11). -/
def Obligations.WireUnitIsThePushOfItsBytes : Prop :=
  ∀ s : State, exec .sofV1 s = exec (.push 0xFE) s ∧ exec .sofV2 s = exec (.push 0xFD) s ∧
    (∀ b, exec (.noise b) s = exec (.push b) s) ∧
    ∀ r : FrameRecord, exec (.v1Frame r) s = exec (.pushs r.wireBytes) s ∧
      exec (.v2FrameUnsigned r) s = exec (.pushs r.wireBytes) s ∧ exec (.v2FrameSigned r) s = exec (.pushs r.wireBytes) s

/-- A frame offered in SEEKING with an empty queue is held when its last byte is in, with status 0, its bytes in RAW and every view
showing its record, for each of the three frame formats (R74 to R76, R164). That a frame unit is the PUSH of its bytes in one step is
the model's reading (log 11). -/
def Obligations.OfferedFrameIsHeld : Prop :=
  ∀ (s : State) (i : Instr) (r : FrameRecord),
    s.codesLegal → s.rxState = .seeking → s.pq = [] → s.raw.wf = true → i.wellFormed = true →
    i = .v1Frame r ∨ i = .v2FrameUnsigned r ∨ i = .v2FrameSigned r →
    ∃ t, exec i s = .next t ∧ t.rxState = .emit ∧ t.ver = r.version ∧ t.n = r.wireBytes.length ∧ t.held = r.wireBytes ∧
      t.pq = [] ∧ t.status = 0 ∧ t.port = s.port ∧ viewsShow r r.wireBytes t

/-- Stream and buffer agree (R164): from SEEKING with an empty queue, push a sequence that starts with a magic byte and is not yet
longer than its frame. A frame is held exactly when FrameDecode consumes exactly the bytes pushed, and every view shows the
decoded record; while FrameDecode says Incomplete the receiver is inside a candidate. That the bytes are pushed by one PUSHS step, and
not one PUSH at a time, is the model's choice (log 10). -/
def Obligations.StreamAndBufferAgree : Prop :=
  ∀ (s : State) (bytes : List Byte), s.codesLegal → s.rxState = .seeking → s.pq = [] → s.raw.wf = true →
    bytes.head? = some 0xFE ∨ bytes.head? = some 0xFD →
    (frameDecode bytes = .error .incomplete →
      ∃ t, exec (.pushs bytes) s = .next t ∧ t.status = 1 ∧
        (t.rxState = .header ∨ t.rxState = .payload ∨ t.rxState = .checksum ∨ t.rxState = .signature)) ∧
    (∀ r, frameDecode bytes = .ok (r, bytes.length) →
      ∃ t, exec (.pushs bytes) s = .next t ∧ t.rxState = .emit ∧ t.status = 0 ∧ viewsShow r bytes t) ∧
    (∀ r consumed k, frameDecode bytes = .ok (r, consumed) →
      consumed ≤ bytes.length ∧ (0 < k → k < consumed → frameDecode (bytes.take k) = .error .incomplete) ∧
      frameDecode (bytes.take consumed) = .ok (r, consumed))

/-! ### What commands leave unchanged -/

/-- NOP, VALIDATE and the reserved opcodes in every state, PUSH (and the one-byte wire units) in EMIT, ACCEPT and REJECT outside
EMIT: nothing but status changes, in particular no byte of RAW, and NOP keeps status too (R105, R160 to R163, R166). That the one-byte
wire units act as PUSH in EMIT is the model's reading (log 11). -/
def Obligations.ReportingCommandsChangeOnlyStatus : Prop :=
  ∀ (s t : State) (i : Instr), exec i s = .next t →
    (∃ a, i = .nop a) ∨ (∃ x, i = .validate x) ∨ (∃ op a, i = .reserved op a) ∨
      (s.rxState = .emit ∧ ((∃ b, i = .push b) ∨ i = .sofV1 ∨ i = .sofV2 ∨ ∃ b, i = .noise b)) ∨
      (s.rxState ≠ .emit ∧ ((∃ a, i = .accept a) ∨ ∃ a, i = .reject a)) →
    t.rxState = s.rxState ∧ t.ver = s.ver ∧ t.n = s.n ∧ t.crcRun = s.crcRun ∧ t.pq = s.pq ∧ t.port = s.port ∧
      (∀ j, t.raw.read j = s.raw.read j) ∧ ((∃ a, i = .nop a) → t.status = s.status)

/-- PUSH and the one-byte wire units: the queue and the port stay; every byte of RAW stays but the one stored, at index 0 where a
candidate opens and at index n inside one, and no byte changes where none is stored; the version changes only where a candidate
opens; the CRC stays in CHECKSUM, SIGNATURE and EMIT and on noise (R153, R154). That the one-byte wire units act as PUSH is the model's
reading (log 11). -/
def Obligations.PushStoresOneByteAndLeavesTheRest : Prop :=
  ∀ (s t : State) (i : Instr) (b : Byte),
    (i = .push b ∨ (i = .sofV1 ∧ b = 0xFE) ∨ (i = .sofV2 ∧ b = 0xFD) ∨ i = .noise b) → exec i s = .next t →
    t.pq = s.pq ∧ t.port = s.port ∧
    (s.rxState = .seeking ∧ versionOf b ≠ none → ∀ j, j ≠ 0 → t.raw.read j = s.raw.read j) ∧
    (s.rxState = .header ∨ s.rxState = .payload ∨ s.rxState = .checksum ∨ s.rxState = .signature →
      ∀ j, j ≠ s.n → t.raw.read j = s.raw.read j) ∧
    ((s.rxState = .seeking ∧ versionOf b = none) ∨ s.rxState = .emit → t.raw = s.raw) ∧
    (¬ (s.rxState = .seeking ∧ versionOf b ≠ none) → t.ver = s.ver) ∧
    ((s.rxState = .seeking ∧ versionOf b = none) ∨ s.rxState = .checksum ∨ s.rxState = .signature ∨ s.rxState = .emit →
      t.crcRun = s.crcRun)

/-- PUSHS and the frame units: the queue and the port stay, and every byte of RAW stays but those from the candidate's count on (from
index 0 in SEEKING), one for each byte offered at most (R154, R160). That a PUSHS is one step is the model's choice (log 10), that a frame
unit is the PUSH of its bytes its reading (log 11). -/
def Obligations.PushedSequenceStoresOnlyAtItsIndexes : Prop :=
  ∀ (s t : State) (i : Instr) (bytes : List Byte),
    (i = .pushs bytes ∨ ∃ r, bytes = r.wireBytes ∧ (i = .v1Frame r ∨ i = .v2FrameUnsigned r ∨ i = .v2FrameSigned r)) →
    exec i s = .next t →
    t.pq = s.pq ∧ t.port = s.port ∧
    (s.rxState = .emit → t.raw = s.raw ∧ t.n = s.n ∧ t.ver = s.ver ∧ t.crcRun = s.crcRun ∧ t.rxState = s.rxState) ∧
    let start := if s.rxState = .seeking then 0 else s.n
    ∀ j, j < start ∨ start + bytes.length ≤ j → t.raw.read j = s.raw.read j

/-- ACCEPT and REJECT of a held frame: the port stays; the queue left is the end of what was queued; RAW is written only at indexes
below the number of bytes scanned; the version changes only where a magic byte was scanned (R156, R162, R163). -/
def Obligations.DrainStoresOnlyWhatItScans : Prop :=
  ∀ (s t : State) (i : Instr) (queue : List Byte), s.rxState = .emit →
    ((∃ a, i = .accept a) ∧ queue = s.pq) ∨ ((∃ a, i = .reject a) ∧ queue = s.held.drop 1 ++ s.pq) →
    exec i s = .next t →
    t.port = s.port ∧ t.status = 0 ∧
    ∃ k, k ≤ queue.length ∧ t.pq = queue.drop k ∧
      (∀ j, k ≤ j → t.raw.read j = s.raw.read j) ∧
      ((∀ b, b ∈ queue.take k → versionOf b = none) → t.ver = s.ver ∧ t.raw = s.raw)

/-- For every command word (R192): CHECKSUM_MISMATCH, NOT_READY and ILLEGAL_COMMAND leave the framing state unchanged, and only
REJECT puts bytes back to be scanned again. -/
def Obligations.ErrorStatusLeavesTheFramingState : Prop :=
  ∀ (w : Word) (i : Instr) (s t : State), decode (.command w) = .ok i → exec i s = .next t →
    (t.status = 3 ∨ t.status = 9 ∨ t.status = 10 →
      t.rxState = s.rxState ∧ t.n = s.n ∧ t.raw = s.raw ∧ t.crcRun = s.crcRun ∧ t.pq = s.pq) ∧
    ((∀ a, i ≠ .reject a) → ∃ k, t.pq = s.pq.drop k)

/-! ### Invariants -/

/-- The reset state meets the invariant. -/
def Obligations.InvariantHoldsAtReset : Prop := State.reset.Inv

/-- Every step from a state that meets the invariant, whatever the host does next, gives a state that meets it (R29 to R32, R190,
and RAW's canonical form). -/
def Obligations.StepKeepsTheInvariant : Prop :=
  ∀ s t : State, s.Inv → step s = .next t → t.Inv

/-- In every reachable state rx_state and n agree by the table of R29. -/
def Obligations.ReachableStateAndCountAgree : Prop := ∀ s : State, Reachable s → s.countAgrees

/-- In every reachable state the replay queue is empty outside EMIT (R30). -/
def Obligations.ReachableQueueIsEmptyOutsideEmit : Prop :=
  ∀ s : State, Reachable s → s.rxState ≠ .emit → s.pq = []

/-- In every reachable state n + |PQ| is at most 280, and a non-empty queue holds at most 279 bytes (R31). -/
def Obligations.ReachableStorageIsBounded : Prop :=
  ∀ s : State, Reachable s → s.n + s.pq.length ≤ 280 ∧ (s.pq ≠ [] → s.pq.length ≤ 279)

/-- In every reachable state the running CRC is the CRC of the checksummed bytes received so far (R32). -/
def Obligations.ReachableCrcAgrees : Prop :=
  ∀ s : State, Reachable s →
    (s.rxState = .seeking → s.crcRun = 0xFFFF) ∧
    (s.rxState ≠ .seeking → s.crcRun = crcCompute (s.raw.slice 1 (if s.n < 2 then s.n else min s.n (s.hdrLen + s.len))))

/-- The status register never holds codes 2, 4 to 8, or 11 to 15 (R190). -/
def Obligations.ReachableStatusIsAProducedCode : Prop :=
  ∀ s : State, Reachable s → s.status = 0 ∨ s.status = 1 ∨ s.status = 3 ∨ s.status = 9 ∨ s.status = 10

/-- The block never stops accepting commands (R194): in every reachable state every instruction completes, and stays in the
invariant's codes. -/
def Obligations.ReachableBlockAlwaysTakesTheNextCommand : Prop :=
  ∀ (s : State) (i : Instr), Reachable s → ∃ t, exec i s = .next t ∧ t.codesLegal

/-- A V1 candidate never waits for a trailer, and a held V1 frame reads unsigned, whatever its bytes (R130). -/
def Obligations.V1IsNeverSigned : Prop :=
  ∀ s : State, Reachable s → s.ver = .v1 →
    s.rxState ≠ .signature ∧ (s.rxState = .emit → View.read .outSigned s = .value 0 ∧ s.n = 6 + s.len + 2)

/-- What is stale is never seen (R24, R23, U2, U12): two states of the invariant that differ only in RAW at index n and above and,
in SEEKING, in the version, have the same views and step to states that again differ only so, or stop alike. So no claim can rest
on the byte the model chose for RAW at reset (log 3). -/
def Obligations.StaleStorageIsUnobservable : Prop :=
  ∀ s t : State, s.Inv → t.Inv → s.SameObservable t →
    (∀ v : View, v.read s = v.read t) ∧ outcomesRelated State.SameObservable (step s) (step t)

/-! ### Views -/

/-- `in_ready`, `frame_valid` and `status_out` are defined in every state (R36 to R38). That they are read also where rx_state is 6 or
7 or status holds an unused code is the model's choice (log 23); the PUSH that R36 speaks of is said by
PushConsumesUnlessAFrameIsHeld. -/
def Obligations.HandshakeViewsAreAlwaysDefined : Prop :=
  ∀ s : State,
    View.read .inReady s = .value (if s.rxState ≠ .emit then 1 else 0) ∧
    View.read .frameValid s = .value (if s.rxState = .emit then 1 else 0) ∧
    View.read .statusOut s = .value s.status

/-- Reads outside a view's domain are faults, never values (R46), and PAYLOAD[i] with i >= 255 is refused (R44). -/
def Obligations.ReadsOutsideAViewsDomainStop : Prop :=
  ∀ (s : State) (v : View),
    (v.alwaysDefined = false → v.named = true → s.rxState ≠ .emit → v.read s = .fault .frameViewOutsideEmit) ∧
    (v.ofTrailer = true → s.rxState = .emit → s.signed = false → v.read s = .fault .trailerViewUnsigned) ∧
    (∀ i, v = .rawOut i → s.rxState = .emit → s.total ≤ i → v.read s = .fault .rawOutBeyondFrame) ∧
    (∀ i, v = .payload i → 255 ≤ i → v.read s = .refused .payloadIndexNamesNoView)

/-- The frame views of a held frame read the RAW bytes the rules name (R39 to R42, R44, R45). -/
def Obligations.FrameViewsReadTheRawBytes : Prop :=
  ∀ s : State, s.rxState = .emit →
    View.read .outVersion s = .value (if s.ver = .v2 then 1 else 0) ∧
    View.read .outLen s = .value (s.raw.read 1) ∧
    View.read .outIncompat s = .value (if s.ver = .v2 then s.raw.read 2 else 0) ∧
    View.read .outCompat s = .value (if s.ver = .v2 then s.raw.read 3 else 0) ∧
    View.read .outSeq s = .value (if s.ver = .v2 then s.raw.read 4 else s.raw.read 2) ∧
    View.read .outSys s = .value (if s.ver = .v2 then s.raw.read 5 else s.raw.read 3) ∧
    View.read .outComp s = .value (if s.ver = .v2 then s.raw.read 6 else s.raw.read 4) ∧
    View.read .outMsgid s = .value (if s.ver = .v2 then
        (s.raw.read 7).zeroExtend 24 ||| ((s.raw.read 8).zeroExtend 24 <<< 8) ||| ((s.raw.read 9).zeroExtend 24 <<< 16)
      else (s.raw.read 5).zeroExtend 24) ∧
    View.read .outChecksum s = .value
      ((s.raw.read (s.hdrLen + s.len)).zeroExtend 16 ||| ((s.raw.read (s.hdrLen + s.len + 1)).zeroExtend 16 <<< 8)) ∧
    View.read .outSigned s = .value (if s.ver = .v2 ∧ (s.raw.read 2).getLsbD 0 = true then 1 else 0) ∧
    View.read .outAdvUnknownIncompat s = .value (if s.ver = .v2 ∧ s.raw.read 2 &&& 0xFE ≠ 0 then 1 else 0) ∧
    (∀ i, i < 255 → View.read (.payload i) s = .value (if i < s.len then s.raw.read (s.hdrLen + i) else 0)) ∧
    View.read .outTotalLen s = .value (BitVec.ofNat 9 s.total) ∧
    (∀ i, i < s.total → View.read (.rawOut i) s = .value (s.raw.read i)) ∧
    s.hdrLen = (if s.ver = .v2 then 10 else 6) ∧
    s.total = s.hdrLen + s.len + 2 + (if s.ver = .v2 ∧ (s.raw.read 2).getLsbD 0 = true then 13 else 0)

/-- The trailer views of a held signed frame (R43): the link id at T, the timestamp as the sum of its six bytes shifted by eight
times their place, the signature bytes in wire order; each read of an unsigned frame's trailer is a fault. -/
def Obligations.TrailerViewsReadTheRawBytes : Prop :=
  ∀ s : State, s.rxState = .emit →
    (s.signed = true →
      View.read .outLinkId s = .value (s.raw.read (s.hdrLen + s.len + 2)) ∧
      (∃ t : BitVec 48, View.read .outTimestamp s = .value t ∧
        t.toNat = ((List.range 6).map fun k => (s.raw.read (s.hdrLen + s.len + 2 + 1 + k)).toNat <<< (8 * k)).sum) ∧
      ∀ j : Fin 6, View.read (.outSig j) s = .value (s.raw.read (s.hdrLen + s.len + 2 + 7 + j.val))) ∧
    (s.signed = false → View.read .outLinkId s = .fault .trailerViewUnsigned ∧
      View.read .outTimestamp s = .fault .trailerViewUnsigned ∧
      ∀ j : Fin 6, View.read (.outSig j) s = .fault .trailerViewUnsigned)

/-- The signed byte range (R129): a held signed frame is the range a verifier hashes followed by the six signature bytes on the
views. -/
def Obligations.SignedRangeIsTheFrameButItsSignature : Prop :=
  ∀ s : State, s.Inv → s.rxState = .emit → s.signed = true →
    s.prehashBytes.length = s.total - 6 ∧
    ∃ sig : List Byte, sig.length = 6 ∧ s.held = s.prehashBytes ++ sig ∧
      ∀ j : Fin 6, View.read (.outSig j) s = .value (byteAt sig j.val)

/-! ### Checksum Engine -/

/-- The table form and the nibble form give the value of the loop for every CRC and byte (R108). -/
def Obligations.CrcFormsAgree : Prop :=
  ∀ (crc : Word) (b : Byte),
    crcAccumulateTable crc b = crcAccumulate crc b ∧ crcAccumulateNibble crc b = crcAccumulate crc b

/-- A CRC can be taken up again between any two bytes (R102), and the worked values of R101 and R102. -/
def Obligations.CrcCanBeResumed : Prop :=
  (∀ a c : List Byte, crcCompute (a ++ c) = c.foldl crcAccumulate (crcCompute a)) ∧
  crcCompute [] = 0xFFFF ∧ crcAccumulate 0xFFFF 0x00 = 0x0F87 ∧ crcAccumulate 0x0000 0x01 = 0x1189 ∧
  crcAccumulate 0xFFFF 0xFF = 0x00FF ∧
  crcCompute [0x31, 0x32, 0x33, 0x34, 0x35, 0x36, 0x37, 0x38, 0x39] = 0x6F91

/-- The two values R8 allows for CRC_XOROUT give complementary checksums, and the model's is the one at 0x0000 (R8, R103). -/
def Obligations.ChecksumAlternativesAreComplements : Prop :=
  ∀ (body : List Byte) (x : Byte),
    checksumWith 0xFFFF body x = ~~~ checksumWith 0x0000 body x ∧
    checksum body x = crcAccumulate (crcCompute body) x

/-- Every single-bit error in the checksummed bytes or the checksum, the length byte kept, turns an OK into a CHECKSUM_MISMATCH
(R107); the checksum of a body changes whichever of its bits is flipped, for every CRC_XOROUT. -/
def Obligations.SingleBitErrorIsDetected : Prop :=
  (∀ (xorOut : Word) (body : List Byte) (x : Byte) (i j : Nat), i < body.length → j < 8 →
    checksumWith xorOut (body.set i (byteAt body i ^^^ ((1 : Byte) <<< j))) x ≠ checksumWith xorOut body x) ∧
  (∀ (s t u : State) (x : Byte) (i j : Nat), s.Inv → t.Inv → s.rxState = .emit → t.rxState = .emit → s.ver = t.ver →
    2 ≤ i → i < s.hdrLen + s.len + 2 → j < 8 →
    t.raw.read i = s.raw.read i ^^^ ((1 : Byte) <<< j) →
    (∀ k, k < s.hdrLen + s.len + 2 → k ≠ i → t.raw.read k = s.raw.read k) →
    exec (.validate x) s = .next u → u.status = 0 → exec (.validate x) t = .next { t with status := 3 })

/-! ### Header Codec -/

/-- HeaderDecode tests in the order empty, bad magic, short header, and reads the fields at the offsets of R121 and R122 (R124). -/
def Obligations.HeaderDecodeResults : Prop :=
  headerDecode [] = .error .bufferTooShort ∧
  (∀ b rest, b ≠ 0xFE → b ≠ 0xFD → headerDecode (b :: rest) = .error .malformed) ∧
  (∀ rest, rest.length < 5 → headerDecode (0xFE :: rest) = .error .bufferTooShort) ∧
  (∀ rest, rest.length < 9 → headerDecode (0xFD :: rest) = .error .bufferTooShort) ∧
  (∀ l q y c m rest, headerDecode (0xFE :: l :: q :: y :: c :: m :: rest) =
    .ok ({ len := l.toNat, incompat := 0, compat := 0, seq := q, sys := y, comp := c, msgid := m.zeroExtend 24 }, .v1)) ∧
  (∀ l f p q y c m0 m1 m2 rest, headerDecode (0xFD :: l :: f :: p :: q :: y :: c :: m0 :: m1 :: m2 :: rest) =
    .ok ({ len := l.toNat, incompat := f, compat := p, seq := q, sys := y, comp := c, msgid := m2 ++ m1 ++ m0 }, .v2))

/-- FrameDecode (R127, R79): empty is Incomplete, a bad magic Malformed, a proper prefix Incomplete; whatever follows a whole frame
is not read. -/
def Obligations.FrameDecodeResults : Prop :=
  frameDecode [] = .error .incomplete ∧
  (∀ b rest, b ≠ 0xFE → b ≠ 0xFD → frameDecode (b :: rest) = .error .malformed) ∧
  (∀ (r : FrameRecord) (k : Nat), r.wellFormed = true → k < r.wireBytes.length →
    frameDecode (r.wireBytes.take k) = .error .incomplete) ∧
  (∀ (r : FrameRecord) (rest : List Byte), r.wellFormed = true →
    frameDecode (r.wireBytes ++ rest) = .ok (r, r.wireBytes.length) ∧
    r.wireBytes.length = (if r.version = .v2 then 10 else 6) + r.len.toNat + 2 + (if r.sig.isSome then 13 else 0))

/-- Trim (R133): a prefix; only zero bytes go; the first byte stays; it ends in a byte that is not zero or is one byte long. -/
def Obligations.TrimDropsTrailingZerosButTheFirstByte : Prop :=
  ∀ p : List Byte, ∃ k, k ≤ p.length ∧ trim p = p.take k ∧ (∀ i, k ≤ i → i < p.length → byteAt p i = 0) ∧
    (p ≠ [] → 1 ≤ k) ∧ (1 < k → byteAt p (k - 1) ≠ 0)

/-- FrameEncode refuses a V1 record with a signature, a message id above 255 or a non-zero flag byte, and any record whose payload
as transmitted, trimmed or not, is longer than 255 bytes; it accepts every well-formed record (R130 to R132, D16; that a V1 record with a non-zero incompat is refused follows
D16, log 19). -/
def Obligations.FrameEncodeRefusesWhatItCannotEncode : Prop :=
  (∀ (r : FrameRecord) (x : Byte) (trimmed : Bool), r.version = .v1 →
    r.sig.isSome = true ∨ 255 < r.msgid.toNat ∨ r.incompat ≠ 0 ∨ r.compat ≠ 0 → frameEncode r x trimmed = none) ∧
  (∀ (r : FrameRecord) (x : Byte) (trimmed : Bool), 255 < (transmittedPayload r trimmed).length →
    frameEncode r x trimmed = none) ∧
  (∀ (r : FrameRecord) (x : Byte) (trimmed : Bool), r.wellFormed = true → (frameEncode r x trimmed).isSome = true)

/-- Decode of encode (R134): the record comes back whole; with trim, with the payload FrameEncode transmitted and its length, and
the payload reads the same with its zero extension. The premise on the checksum says that the record's checksum is the one
FrameEncode computes. -/
def Obligations.FrameRoundTrip : Prop :=
  ∀ (r : FrameRecord) (x : Byte) (trimmed : Bool) (bytes : List Byte), r.wellFormed = true →
    frameEncode r x trimmed = some bytes →
    (let p := transmittedPayload r trimmed
     r.checksum = le16 (byteAt bytes (r.version.hdrLen + p.length)) (byteAt bytes (r.version.hdrLen + p.length + 1)) →
     frameDecode bytes = .ok ({ r with payload := p, len := BitVec.ofNat 8 p.length }, bytes.length) ∧
     frameChecksumMatches bytes x = true ∧
     (trimmed = false → frameDecode bytes = .ok (r, bytes.length)) ∧
     (trimmed = true → r.version = .v2 → p = trim r.payload) ∧
     ∀ i, i < 255 → byteAt p i = byteAt r.payload i)

/-! ### Whole streams -/

/-- A host that pushes a stream and keeps (ACCEPT) or refuses (REJECT) each held frame by any policy on its bytes gets exactly the
frames that scanning the stream as a buffer with FrameDecode gives: the byte-serial receiver with its replay queue refines the
reference scan (R156, R160 to R164). -/
def Obligations.ReceiverRefinesTheReferenceScan : Prop :=
  ∀ (keep : List Byte → Bool) (stream : List Byte),
    ∃ t, hostRun (fun s => keep s.held) stream State.reset = some (t, referenceScan keep stream.length stream)

/-- Two frames with noise before each, the noise without a magic byte, every held frame accepted: the block emits exactly the first
frame and then the second (R167). A host that also runs VALIDATE before each ACCEPT is not stated here: VALIDATE changes only
status (ReportingCommandsChangeOnlyStatus). -/
def Obligations.AcceptingHostGetsExactlyTheTwoFrames : Prop :=
  ∀ g1 f1 g2 f2 : List Byte, noMagic g1 → noMagic g2 → isFrame f1 → isFrame f2 →
    ∃ t, hostRun (fun _ => true) (g1 ++ f1 ++ g2 ++ f2) State.reset = some (t, [f1, f2])

/-- A host that validates every held frame and rejects those that fail still gets a genuine frame whatever comes before it, as long
as every fake candidate that starts before it is completed by later bytes and none that overlaps it passes (R167, R215). The premise
asks completion of every magic byte before the frame, also of one inside an earlier frame that passes and is never scanned. -/
def Obligations.RejectingHostRecoversTheGenuineFrame : Prop :=
  ∀ (extraOf : BitVec 24 → Byte) (before frame after : List Byte),
    isFrame frame → frameSays extraOf frame = true →
    (∀ j, j < before.length → versionOf (byteAt before j) ≠ none →
      ∃ r consumed, frameDecode ((before ++ frame ++ after).drop j) = .ok (r, consumed) ∧
        (frameSays extraOf (slice (before ++ frame ++ after) j (j + consumed)) = true → j + consumed ≤ before.length)) →
    ∃ t kept, hostRun (validateSays extraOf) (before ++ frame ++ after) State.reset = some (t, kept) ∧ frame ∈ kept
end

