-- ==== Sys2Proof/Laws/Checksum.lean ====
section
/-! SUPPORT. The laws of the CRC functions: folding in pieces, and that a difference is never lost. -/

namespace Sys2Proof.Machine

@[simp] theorem crcFold_nil (crc : Word) : crcFold crc [] = crc := rfl

@[simp] theorem crcFold_cons (crc : Word) (b : Byte) (s : List Byte) :
    crcFold crc (b :: s) = crcFold (crcAccumulate crc b) s := rfl

theorem crcFold_append (crc : Word) (a c : List Byte) : crcFold crc (a ++ c) = crcFold (crcFold crc a) c := by
  simp [crcFold]

/-- A running CRC takes the next byte of the sequence (R102). -/
theorem crcCompute_concat (s : List Byte) (b : Byte) : crcCompute (s ++ [b]) = crcAccumulate (crcCompute s) b := by
  simp [crcCompute, crcFold_append]

theorem crcRound_getLsbD (c : Word) (i : Nat) :
    (crcRound c).getLsbD i = (c.getLsbD (i + 1) ^^ (c.getLsbD 0 && Config.crcPolyReflected.getLsbD i)) := by
  unfold crcRound
  split <;> simp_all [Nat.add_comm]

/-- A round of the loop loses nothing: bit 15 of its result says which branch it took. -/
theorem crcRound_injective {c d : Word} (h : crcRound c = crcRound d) : c = d := by
  have bit (i : Nat) : (crcRound c).getLsbD i = (crcRound d).getLsbD i := by rw [h]
  have h0 : c.getLsbD 0 = d.getLsbD 0 := by
    have h15 := bit 15
    rw [crcRound_getLsbD, crcRound_getLsbD, BitVec.getLsbD_of_ge c 16 (by omega), BitVec.getLsbD_of_ge d 16 (by omega),
      show Config.crcPolyReflected.getLsbD 15 = true by decide] at h15
    simpa only [Bool.false_xor, Bool.and_true] using h15
  apply BitVec.eq_of_getLsbD_eq
  intro i hi
  cases i with
  | zero => exact h0
  | succ i =>
    have hi' := bit i
    rw [crcRound_getLsbD, crcRound_getLsbD, h0] at hi'
    exact Bool.xor_left_inj.mp hi'

theorem crcRounds_injective (k : Nat) {c d : Word} (h : Nat.repeat crcRound k c = Nat.repeat crcRound k d) : c = d := by
  induction k with
  | zero => exact h
  | succ k ih => exact ih (crcRound_injective h)

/-- Two CRCs that differ still differ after the same byte. -/
theorem crcAccumulate_left_injective {c d : Word} {b : Byte} (h : crcAccumulate c b = crcAccumulate d b) : c = d := by
  have := crcRounds_injective 8 h
  exact (BitVec.xor_left_inj _).mp this

/-- From one CRC, two bytes that differ give CRCs that differ. -/
theorem crcAccumulate_right_injective {c : Word} {b b' : Byte} (h : crcAccumulate c b = crcAccumulate c b') : b = b' := by
  have h1 := (BitVec.xor_right_inj _).mp (crcRounds_injective 8 h)
  have h2 := congrArg (BitVec.setWidth 8) h1
  simpa [BitVec.zeroExtend] using h2

/-- Two CRCs that differ still differ after the same bytes. -/
theorem crcFold_injective {c d : Word} {s : List Byte} (h : crcFold c s = crcFold d s) : c = d := by
  induction s generalizing c d with
  | nil => exact h
  | cons b s ih => exact crcAccumulate_left_injective (ih h)

theorem crcFinish_injective {xorOut c d : Word} {x : Byte} (h : crcFinish xorOut c x = crcFinish xorOut d x) : c = d :=
  crcAccumulate_left_injective ((BitVec.xor_left_inj _).mp h)

/-- A round is linear over XOR: what the table form of R108 rests on. -/
theorem crcRound_xor (c d : Word) : crcRound (c ^^^ d) = crcRound c ^^^ crcRound d := by
  apply BitVec.eq_of_getLsbD_eq
  intro i hi
  simp only [crcRound_getLsbD, BitVec.getLsbD_xor]
  cases c.getLsbD (i + 1) <;> cases d.getLsbD (i + 1) <;> cases c.getLsbD 0 <;> cases d.getLsbD 0 <;>
    cases Config.crcPolyReflected.getLsbD i <;> rfl

theorem crcRounds_xor (k : Nat) (c d : Word) :
    Nat.repeat crcRound k (c ^^^ d) = Nat.repeat crcRound k c ^^^ Nat.repeat crcRound k d := by
  induction k with
  | zero => rfl
  | succ k ih => simp only [Nat.repeat, ih, crcRound_xor]

end Sys2Proof.Machine
end

