-- ==== Sys2Proof/Laws/Codec.lean ====
section
/-! SUPPORT. The laws of the decoder's and encoder's shared functions: versions, byte fields, command words. -/

namespace Sys2Proof

theorem Version.hdrLen_bounds (v : Version) : 6 ≤ v.hdrLen ∧ v.hdrLen ≤ 10 := by cases v <;> decide

theorem versionOf_eq_some {b : Byte} {v : Version} : versionOf b = some v ↔ b = v.magic := by
  by_cases h1 : b = Config.magicV1
  · subst h1; cases v <;> decide
  · by_cases h2 : b = Config.magicV2
    · subst h2; cases v <;> decide
    · cases v <;> simp [versionOf, h1, h2, Version.magic]

@[simp] theorem versionOf_magic (v : Version) : versionOf v.magic = some v := versionOf_eq_some.mpr rfl

/-- No version exactly for the bytes that are no magic byte (R123). -/
theorem versionOf_eq_none {b : Byte} : versionOf b = none ↔ b ≠ Config.magicV1 ∧ b ≠ Config.magicV2 := by
  unfold versionOf
  split
  · simp_all
  · split <;> simp_all

/-! ### Byte fields -/

/-- A bit of byte k of a value. -/
theorem getLsbD_byteOf {w : Nat} (v : BitVec w) (k i : Nat) :
    (byteOf v k).getLsbD i = (decide (i < 8) && v.getLsbD (8 * k + i)) := by simp [byteOf]

theorem getLsbD_le16 (b0 b1 : Byte) (i : Nat) :
    (le16 b0 b1).getLsbD i = (decide (i < 16) && if i < 8 then b0.getLsbD i else b1.getLsbD (i - 8)) := by
  by_cases h : i < 8
  · simp [le16, h, show i < 16 by omega]
  · by_cases h16 : i < 16
    · simp [le16, h, h16, BitVec.getLsbD_of_ge b0 i (by omega)]
    · simp [le16, h16]

theorem commandWord_eq_le16 (op arg : Byte) : commandWord op arg = le16 op arg := BitVec.or_comm _ _

/-- A 16-bit value keeps the byte sent first (R51). -/
@[simp] theorem byteOf_le16_zero (b0 b1 : Byte) : byteOf (le16 b0 b1) 0 = b0 := by
  apply BitVec.eq_of_getLsbD_eq
  intro i hi
  rw [getLsbD_byteOf, getLsbD_le16]
  simp [hi, show i < 16 by omega]

/-- A 16-bit value keeps the byte sent second (R51). -/
@[simp] theorem byteOf_le16_one (b0 b1 : Byte) : byteOf (le16 b0 b1) 1 = b1 := by
  apply BitVec.eq_of_getLsbD_eq
  intro i hi
  rw [getLsbD_byteOf, getLsbD_le16]
  simp [hi, show 8 + i < 16 by omega]

/-- A 16-bit value is its two bytes (R51). -/
@[simp] theorem le16_bytes (w : Word) : le16 (byteOf w 0) (byteOf w 1) = w := by
  apply BitVec.eq_of_getLsbD_eq
  intro i hi
  rw [getLsbD_le16, getLsbD_byteOf, getLsbD_byteOf]
  by_cases h : i < 8
  · simp [h, hi]
  · simp [h, hi, show i - 8 < 8 by omega, show 8 + (i - 8) = i by omega]

/-- The opcode of a command word is its low byte (R70). -/
@[simp] theorem byteOf_commandWord_zero (op arg : Byte) : byteOf (commandWord op arg) 0 = op := by
  rw [commandWord_eq_le16, byteOf_le16_zero]

/-- The operand of a command word is its high byte (R70). -/
@[simp] theorem byteOf_commandWord_one (op arg : Byte) : byteOf (commandWord op arg) 1 = arg := by
  rw [commandWord_eq_le16, byteOf_le16_one]

/-- A command word is its two bytes (R70). -/
@[simp] theorem commandWord_bytes (w : Word) : commandWord (byteOf w 0) (byteOf w 1) = w := by
  rw [commandWord_eq_le16, le16_bytes]

theorem getLsbD_le24 (b0 b1 b2 : Byte) (i : Nat) :
    (le24 b0 b1 b2).getLsbD i =
      (decide (i < 24) && if i < 8 then b0.getLsbD i else if i < 16 then b1.getLsbD (i - 8) else b2.getLsbD (i - 16)) := by
  by_cases h : i < 8
  · simp [le24, h, show i < 16 by omega, show i < 24 by omega]
  · by_cases h16 : i < 16
    · simp [le24, h, h16, BitVec.getLsbD_of_ge b0 i (by omega), show i < 24 by omega]
    · by_cases h24 : i < 24
      · simp [le24, h, h16, h24, BitVec.getLsbD_of_ge b0 i (by omega), BitVec.getLsbD_of_ge b1 (i - 8) (by omega)]
      · simp [le24, h24]

/-- A 24-bit value is its three bytes (R51, R122). -/
@[simp] theorem le24_bytes (v : BitVec 24) : le24 (byteOf v 0) (byteOf v 1) (byteOf v 2) = v := by
  apply BitVec.eq_of_getLsbD_eq
  intro i hi
  rw [getLsbD_le24, getLsbD_byteOf, getLsbD_byteOf, getLsbD_byteOf]
  by_cases h : i < 8
  · simp [h, hi]
  · by_cases h16 : i < 16
    · simp [h, h16, hi, show i - 8 < 8 by omega, show 8 + (i - 8) = i by omega]
    · simp [h, h16, hi, show i - 16 < 8 by omega, show 16 + (i - 16) = i by omega]

/-- A 24-bit value keeps each of its three bytes (R51, R122). -/
theorem byteOf_le24 (b0 b1 b2 : Byte) :
    byteOf (le24 b0 b1 b2) 0 = b0 ∧ byteOf (le24 b0 b1 b2) 1 = b1 ∧ byteOf (le24 b0 b1 b2) 2 = b2 := by
  refine ⟨?_, ?_, ?_⟩ <;> apply BitVec.eq_of_getLsbD_eq <;> intro i hi <;> rw [getLsbD_byteOf, getLsbD_le24]
  · simp [hi, show i < 24 by omega]
  · simp [hi, show ¬ 8 + i < 8 by omega, show 8 + i < 16 by omega, show 8 + i < 24 by omega]
  · simp [hi, show ¬ 16 + i < 8 by omega, show ¬ 16 + i < 16 by omega, show 16 + i < 24 by omega]

theorem getLsbD_le48 (b0 b1 b2 b3 b4 b5 : Byte) (i : Nat) :
    (le48 b0 b1 b2 b3 b4 b5).getLsbD i =
      (decide (i < 48) &&
        if i < 8 then b0.getLsbD i
        else if i < 16 then b1.getLsbD (i - 8)
        else if i < 24 then b2.getLsbD (i - 16)
        else if i < 32 then b3.getLsbD (i - 24)
        else if i < 40 then b4.getLsbD (i - 32)
        else b5.getLsbD (i - 40)) := by
  have z (b : Byte) (j : Nat) (h : 8 ≤ j) : b.getLsbD j = false := BitVec.getLsbD_of_ge b j h
  by_cases h48 : i < 48
  · simp only [le48, BitVec.getLsbD_or, BitVec.getLsbD_shiftLeft, BitVec.getLsbD_setWidth, BitVec.zeroExtend, h48,
      decide_true, Bool.true_and]
    by_cases h8 : i < 8
    · simp [h8, show i < 16 by omega, show i < 24 by omega, show i < 32 by omega, show i < 40 by omega]
    · by_cases h16 : i < 16
      · simp [h8, h16, z b0 i (by omega), show i < 24 by omega, show i < 32 by omega, show i < 40 by omega,
          show i - 8 < 48 by omega]
      · by_cases h24 : i < 24
        · simp [h8, h16, h24, z b0 i (by omega), z b1 (i - 8) (by omega), show i < 32 by omega, show i < 40 by omega,
            show i - 16 < 48 by omega]
        · by_cases h32 : i < 32
          · simp [h8, h16, h24, h32, z b0 i (by omega), z b1 (i - 8) (by omega), z b2 (i - 16) (by omega),
              show i < 40 by omega, show i - 24 < 48 by omega]
          · by_cases h40 : i < 40
            · simp [h8, h16, h24, h32, h40, z b0 i (by omega), z b1 (i - 8) (by omega), z b2 (i - 16) (by omega),
                z b3 (i - 24) (by omega), show i - 32 < 48 by omega]
            · simp [h8, h16, h24, h32, h40, z b0 i (by omega), z b1 (i - 8) (by omega), z b2 (i - 16) (by omega),
                z b3 (i - 24) (by omega), z b4 (i - 32) (by omega), show i - 40 < 48 by omega]
  · simp [BitVec.getLsbD_of_ge _ i (show 48 ≤ i by omega), h48]

/-- A 48-bit value is its six bytes (R51, R76). -/
@[simp] theorem le48_bytes (v : BitVec 48) :
    le48 (byteOf v 0) (byteOf v 1) (byteOf v 2) (byteOf v 3) (byteOf v 4) (byteOf v 5) = v := by
  apply BitVec.eq_of_getLsbD_eq
  intro i hi
  rw [getLsbD_le48]
  simp only [getLsbD_byteOf, hi, decide_true, Bool.true_and]
  by_cases h8 : i < 8
  · simp [h8]
  · by_cases h16 : i < 16
    · simp [h8, h16, show i - 8 < 8 by omega, show 8 + (i - 8) = i by omega]
    · by_cases h24 : i < 24
      · simp [h8, h16, h24, show i - 16 < 8 by omega, show 16 + (i - 16) = i by omega]
      · by_cases h32 : i < 32
        · simp [h8, h16, h24, h32, show i - 24 < 8 by omega, show 24 + (i - 24) = i by omega]
        · by_cases h40 : i < 40
          · simp [h8, h16, h24, h32, h40, show i - 32 < 8 by omega, show 32 + (i - 32) = i by omega]
          · simp [h8, h16, h24, h32, h40, show i - 40 < 8 by omega, show 40 + (i - 40) = i by omega]

/-- The six bytes of a 48-bit value are those it was made of (R51, R132). -/
theorem le6Bytes_le48 (b0 b1 b2 b3 b4 b5 : Byte) : le6Bytes (le48 b0 b1 b2 b3 b4 b5) = [b0, b1, b2, b3, b4, b5] := by
  have key (k : Nat) (hk : k < 6) (c : Byte)
      (hc : ∀ i, i < 8 → (le48 b0 b1 b2 b3 b4 b5).getLsbD (8 * k + i) = c.getLsbD i) :
      byteOf (le48 b0 b1 b2 b3 b4 b5) k = c := by
    apply BitVec.eq_of_getLsbD_eq
    intro i hi
    rw [getLsbD_byteOf, hc i hi]
    simp [hi]
  unfold le6Bytes
  rw [key 0 (by omega) b0, key 1 (by omega) b1, key 2 (by omega) b2, key 3 (by omega) b3, key 4 (by omega) b4,
    key 5 (by omega) b5]
  all_goals
    intro i hi
    rw [getLsbD_le48]
    repeat' (first | rw [if_pos (by omega)] | rw [if_neg (by omega)])
    rw [decide_eq_true (by omega), Bool.true_and]
    congr 1
    omega

/-! ### Indexes into byte sequences -/

@[simp] theorem byteAt_nil (i : Nat) : byteAt [] i = 0 := rfl

@[simp] theorem byteAt_cons_zero (b : Byte) (s : List Byte) : byteAt (b :: s) 0 = b := rfl

@[simp] theorem byteAt_cons_succ (b : Byte) (s : List Byte) (i : Nat) : byteAt (b :: s) (i + 1) = byteAt s i := rfl

theorem byteAt_append_left {s t : List Byte} {i : Nat} (h : i < s.length) : byteAt (s ++ t) i = byteAt s i := by
  simp [byteAt, List.getD, List.getElem?_append_left h]

theorem byteAt_append_right {s t : List Byte} {i : Nat} (h : s.length ≤ i) : byteAt (s ++ t) i = byteAt t (i - s.length) := by
  simp [byteAt, List.getD, List.getElem?_append_right h]

theorem byteAt_take {s : List Byte} {i k : Nat} (h : i < k) : byteAt (s.take k) i = byteAt s i := by
  simp [byteAt, List.getD, h]

theorem length_slice (s : List Byte) (i j : Nat) : (slice s i j).length = min (j - i) (s.length - i) := by
  simp [slice]

/-! ### The length of a frame on the wire -/

@[simp] theorem FrameRecord.length_headerBytes (r : FrameRecord) : r.headerBytes.length = r.version.hdrLen := by
  unfold FrameRecord.headerBytes
  cases r.version <;> rfl

@[simp] theorem Trailer.length_bytes (t : Trailer) : t.bytes.length = 13 := by simp [Trailer.bytes, le6Bytes]

/-- Header, payload, checksum, and the trailer where there is one (R126). -/
theorem FrameRecord.length_wireBytes (r : FrameRecord) :
    r.wireBytes.length = r.version.hdrLen + r.payload.length + 2 + (if r.sig.isSome then 13 else 0) := by
  unfold FrameRecord.wireBytes
  cases h : r.sig <;> simp <;> omega

/-- The first byte on the wire is the magic byte of the version (R74, R75). -/
theorem FrameRecord.byteAt_wireBytes_zero (r : FrameRecord) : byteAt r.wireBytes 0 = r.version.magic := by
  unfold FrameRecord.wireBytes FrameRecord.headerBytes
  cases r.version <;> rfl

theorem FrameRecord.payload_length_of_wellFormed {r : FrameRecord} (h : r.wellFormed = true) :
    r.payload.length = r.len.toNat := by
  simp only [FrameRecord.wellFormed, Bool.and_eq_true, beq_iff_eq] at h
  exact h.1

/-- A well-formed record is 8 to 280 bytes on the wire (R7, R79). -/
theorem FrameRecord.wireBytes_bounds {r : FrameRecord} (h : r.wellFormed = true) :
    8 ≤ r.wireBytes.length ∧ r.wireBytes.length ≤ 280 := by
  have h1 := r.version.hdrLen_bounds
  have h2 := FrameRecord.payload_length_of_wellFormed h
  have h3 := r.len.isLt
  rw [r.length_wireBytes]
  split <;> omega

end Sys2Proof
end

