-- ==== Sys2Proof/Laws/Memory.lean ====
section
/-! SUPPORT. The laws of RAW: a read after a write, the canonical form kept, the slices. -/

namespace Sys2Proof.Machine

@[simp] theorem Memory.read_nil (i : Nat) : Memory.read [] i = Config.rawFill := rfl

theorem Memory.read_cons (a : Nat) (v : Byte) (m : Memory) (i : Nat) :
    Memory.read ((a, v) :: m) i = if i = a then v else Memory.read m i := rfl

/-- A write leaves every other index alone, in canonical form or not. -/
theorem Memory.read_write_of_ne (m : Memory) {i j : Nat} (b : Byte) (h : j ≠ i) : (m.write i b).read j = m.read j := by
  induction m with
  | nil => unfold Memory.write; split <;> simp [Memory.read_cons, h]
  | cons c m ih =>
    obtain ⟨a, v⟩ := c
    unfold Memory.write
    split
    · split <;> simp [Memory.read_cons, h]
    · split
      · subst_vars; split <;> simp [Memory.read_cons, h]
      · simp [Memory.read_cons, ih]

/-- Below the lowest index listed, a canonical RAW reads the unlisted byte. -/
theorem Memory.read_of_lt_low {low : Nat} {m : Memory} (h : Memory.wfFrom low m = true) {i : Nat} (hi : i < low) :
    m.read i = Config.rawFill := by
  induction m generalizing low with
  | nil => rfl
  | cons c m ih =>
    obtain ⟨a, v⟩ := c
    simp only [Memory.wfFrom, Bool.and_eq_true, decide_eq_true_eq] at h
    obtain ⟨⟨⟨h1, -⟩, -⟩, h4⟩ := h
    rw [Memory.read_cons, if_neg (by omega)]
    exact ih h4 (by omega)

theorem Memory.read_write_same_from {low : Nat} {m : Memory} (h : Memory.wfFrom low m = true) (i : Nat) (b : Byte) :
    (m.write i b).read i = b := by
  induction m generalizing low with
  | nil => unfold Memory.write; split <;> simp_all [Memory.read_cons]
  | cons c m ih =>
    obtain ⟨a, v⟩ := c
    simp only [Memory.wfFrom, Bool.and_eq_true, decide_eq_true_eq] at h
    obtain ⟨⟨⟨h1, -⟩, -⟩, h4⟩ := h
    unfold Memory.write
    split
    · split
      · subst_vars
        rw [Memory.read_cons, if_neg (by omega)]
        exact Memory.read_of_lt_low h4 (by omega)
      · simp [Memory.read_cons]
    · split
      · subst_vars
        split
        · subst_vars; exact Memory.read_of_lt_low h4 (by omega)
        · simp [Memory.read_cons]
      · rw [Memory.read_cons, if_neg ‹_›]; exact ih h4

/-- A write to a canonical RAW is read back. -/
theorem Memory.read_write_same {m : Memory} (h : m.wf = true) (i : Nat) (b : Byte) : (m.write i b).read i = b :=
  Memory.read_write_same_from h i b

theorem Memory.read_write {m : Memory} (h : m.wf = true) (i j : Nat) (b : Byte) :
    (m.write i b).read j = if j = i then b else m.read j := by
  split
  · subst_vars; exact Memory.read_write_same h _ b
  · exact Memory.read_write_of_ne m b ‹_›

theorem Memory.wfFrom_mono {low low' : Nat} {m : Memory} (h : Memory.wfFrom low m = true) (hl : low' ≤ low) :
    Memory.wfFrom low' m = true := by
  cases m with
  | nil => rfl
  | cons c m =>
    obtain ⟨a, v⟩ := c
    simp only [Memory.wfFrom, Bool.and_eq_true, decide_eq_true_eq] at h ⊢
    obtain ⟨⟨⟨h1, h2⟩, h3⟩, h4⟩ := h
    exact ⟨⟨⟨by omega, h2⟩, h3⟩, h4⟩

theorem Memory.wfFrom_write {low : Nat} {m : Memory} (h : Memory.wfFrom low m = true) {i : Nat} (hi : i < Config.rawCap)
    (hl : low ≤ i) (b : Byte) : Memory.wfFrom low (m.write i b) = true := by
  induction m generalizing low with
  | nil => unfold Memory.write; split <;> simp_all [Memory.wfFrom]
  | cons c m ih =>
    obtain ⟨a, v⟩ := c
    have h' := h
    simp only [Memory.wfFrom, Bool.and_eq_true, decide_eq_true_eq] at h
    obtain ⟨⟨⟨h1, h2⟩, h3⟩, h4⟩ := h
    unfold Memory.write
    split
    · split
      · exact h'
      · simp only [Memory.wfFrom, Bool.and_eq_true, decide_eq_true_eq]
        refine ⟨⟨⟨hl, hi⟩, by simpa using ‹_›⟩, ⟨⟨by omega, h2⟩, h3⟩, h4⟩
    · split
      · subst_vars
        split
        · exact Memory.wfFrom_mono h4 (by omega)
        · simp only [Memory.wfFrom, Bool.and_eq_true, decide_eq_true_eq]
          exact ⟨⟨⟨hl, hi⟩, by simpa using ‹_›⟩, h4⟩
      · simp only [Memory.wfFrom, Bool.and_eq_true, decide_eq_true_eq]
        exact ⟨⟨⟨h1, h2⟩, h3⟩, ih h4 (by omega)⟩

/-- A write inside RAW keeps the canonical form. -/
theorem Memory.wf_write {m : Memory} (h : m.wf = true) {i : Nat} (hi : i < Config.rawCap) (b : Byte) :
    (m.write i b).wf = true :=
  Memory.wfFrom_write h hi (Nat.zero_le _) b

@[simp] theorem Memory.wf_nil : Memory.wf [] = true := rfl

/-! ### Slices -/

@[simp] theorem Memory.length_slice (m : Memory) (i j : Nat) : (m.slice i j).length = j - i := by simp [Memory.slice]

theorem Memory.getElem_slice (m : Memory) {i j k : Nat} (h : k < (m.slice i j).length) : (m.slice i j)[k] = m.read (i + k) := by
  simp [Memory.slice]

theorem Memory.getD_slice (m : Memory) {i j k : Nat} (h : k < j - i) (d : Byte) : (m.slice i j).getD k d = m.read (i + k) := by
  rw [List.getD_eq_getElem _ _ (by simpa using h), Memory.getElem_slice]

@[simp] theorem Memory.slice_self (m : Memory) (i : Nat) : m.slice i i = [] := by simp [Memory.slice]

theorem Memory.slice_of_le (m : Memory) {i j : Nat} (h : j ≤ i) : m.slice i j = [] := by
  simp [Memory.slice, Nat.sub_eq_zero_of_le h]

/-- A slice depends only on the bytes in it. -/
theorem Memory.slice_congr {m m' : Memory} {i j : Nat} (h : ∀ k, i ≤ k → k < j → m.read k = m'.read k) :
    m.slice i j = m'.slice i j := by
  unfold Memory.slice
  refine List.map_congr_left fun k hk => h _ (by omega) ?_
  have := List.mem_range.mp hk
  omega

/-- A slice grows at its end by the next byte. -/
theorem Memory.slice_succ (m : Memory) {i j : Nat} (h : i ≤ j) : m.slice i (j + 1) = m.slice i j ++ [m.read j] := by
  unfold Memory.slice
  rw [show j + 1 - i = (j - i) + 1 by omega, List.range_succ, List.map_append]
  simp [show i + (j - i) = j by omega]

/-- A slice splits at any index inside it. -/
theorem Memory.slice_append (m : Memory) {i j k : Nat} (h1 : i ≤ j) (h2 : j ≤ k) :
    m.slice i j ++ m.slice j k = m.slice i k := by
  induction k, h2 using Nat.le_induction with
  | base => simp
  | succ k hk ih => rw [m.slice_succ hk, ← List.append_assoc, ih, m.slice_succ (by omega)]

/-- Storing the byte at the end of a slice grows the slice by it. -/
theorem Memory.slice_write_end {m : Memory} (h : m.wf = true) {i j : Nat} (hij : i ≤ j) (b : Byte) :
    (m.write j b).slice i (j + 1) = m.slice i j ++ [b] := by
  rw [Memory.slice_succ _ hij, Memory.read_write_same h]
  congr 1
  exact Memory.slice_congr fun k _ hk => Memory.read_write_of_ne m b (by omega)

/-- Storing a byte at or beyond the end of a slice leaves the slice alone. -/
theorem Memory.slice_write_beyond (m : Memory) {i j a : Nat} (h : j ≤ a) (b : Byte) : (m.write a b).slice i j = m.slice i j :=
  Memory.slice_congr fun _ _ hk => Memory.read_write_of_ne m b (by omega)

end Sys2Proof.Machine
end

