-- ==== Sys2Proof/Laws/State.lean ====
section
/-! SUPPORT. One lemma per field per named update of State, true by rfl. -/

namespace Sys2Proof.Machine

variable (s : State)

@[simp] theorem State.report_rxState (c : Code) : (s.report c).rxState = s.rxState := rfl
@[simp] theorem State.report_ver (c : Code) : (s.report c).ver = s.ver := rfl
@[simp] theorem State.report_n (c : Code) : (s.report c).n = s.n := rfl
@[simp] theorem State.report_raw (c : Code) : (s.report c).raw = s.raw := rfl
@[simp] theorem State.report_crcRun (c : Code) : (s.report c).crcRun = s.crcRun := rfl
@[simp] theorem State.report_pq (c : Code) : (s.report c).pq = s.pq := rfl
@[simp] theorem State.report_status (c : Code) : (s.report c).status = c.bits := rfl
@[simp] theorem State.report_port (c : Code) : (s.report c).port = s.port := rfl

@[simp] theorem State.openCandidate_rxState (v : Version) (b : Byte) : (s.openCandidate v b).rxState = .header := rfl
@[simp] theorem State.openCandidate_ver (v : Version) (b : Byte) : (s.openCandidate v b).ver = v := rfl
@[simp] theorem State.openCandidate_n (v : Version) (b : Byte) : (s.openCandidate v b).n = 1 := rfl
@[simp] theorem State.openCandidate_raw (v : Version) (b : Byte) : (s.openCandidate v b).raw = s.raw.write 0 b := rfl
@[simp] theorem State.openCandidate_crcRun (v : Version) (b : Byte) : (s.openCandidate v b).crcRun = Config.crcInit := rfl
@[simp] theorem State.openCandidate_pq (v : Version) (b : Byte) : (s.openCandidate v b).pq = s.pq := rfl
@[simp] theorem State.openCandidate_status (v : Version) (b : Byte) : (s.openCandidate v b).status = s.status := rfl
@[simp] theorem State.openCandidate_port (v : Version) (b : Byte) : (s.openCandidate v b).port = s.port := rfl

@[simp] theorem State.store_rxState (b : Byte) : (s.store b).rxState = s.rxState := rfl
@[simp] theorem State.store_ver (b : Byte) : (s.store b).ver = s.ver := rfl
@[simp] theorem State.store_n (b : Byte) : (s.store b).n = s.n + 1 := rfl
@[simp] theorem State.store_raw (b : Byte) : (s.store b).raw = if s.n < Config.rawCap then s.raw.write s.n b else s.raw := rfl
@[simp] theorem State.store_crcRun (b : Byte) : (s.store b).crcRun = s.crcRun := rfl
@[simp] theorem State.store_pq (b : Byte) : (s.store b).pq = s.pq := rfl
@[simp] theorem State.store_status (b : Byte) : (s.store b).status = s.status := rfl
@[simp] theorem State.store_port (b : Byte) : (s.store b).port = s.port := rfl

@[simp] theorem State.foldCrc_rxState (b : Byte) : (s.foldCrc b).rxState = s.rxState := rfl
@[simp] theorem State.foldCrc_ver (b : Byte) : (s.foldCrc b).ver = s.ver := rfl
@[simp] theorem State.foldCrc_n (b : Byte) : (s.foldCrc b).n = s.n := rfl
@[simp] theorem State.foldCrc_raw (b : Byte) : (s.foldCrc b).raw = s.raw := rfl
@[simp] theorem State.foldCrc_crcRun (b : Byte) : (s.foldCrc b).crcRun = crcAccumulate s.crcRun b := rfl
@[simp] theorem State.foldCrc_pq (b : Byte) : (s.foldCrc b).pq = s.pq := rfl
@[simp] theorem State.foldCrc_status (b : Byte) : (s.foldCrc b).status = s.status := rfl
@[simp] theorem State.foldCrc_port (b : Byte) : (s.foldCrc b).port = s.port := rfl

@[simp] theorem State.advance_rxState : (s.advance).rxState = s.nextRx := rfl
@[simp] theorem State.advance_ver : (s.advance).ver = s.ver := rfl
@[simp] theorem State.advance_n : (s.advance).n = s.n := rfl
@[simp] theorem State.advance_raw : (s.advance).raw = s.raw := rfl
@[simp] theorem State.advance_crcRun : (s.advance).crcRun = s.crcRun := rfl
@[simp] theorem State.advance_pq : (s.advance).pq = s.pq := rfl
@[simp] theorem State.advance_status : (s.advance).status = s.status := rfl
@[simp] theorem State.advance_port : (s.advance).port = s.port := rfl

@[simp] theorem State.release_rxState : (s.release).rxState = .seeking := rfl
@[simp] theorem State.release_ver : (s.release).ver = s.ver := rfl
@[simp] theorem State.release_n : (s.release).n = 0 := rfl
@[simp] theorem State.release_raw : (s.release).raw = s.raw := rfl
@[simp] theorem State.release_crcRun : (s.release).crcRun = Config.crcInit := rfl
@[simp] theorem State.release_pq : (s.release).pq = s.pq := rfl
@[simp] theorem State.release_status : (s.release).status = s.status := rfl
@[simp] theorem State.release_port : (s.release).port = s.port := rfl

@[simp] theorem State.requeue_rxState : (s.requeue).rxState = s.rxState := rfl
@[simp] theorem State.requeue_ver : (s.requeue).ver = s.ver := rfl
@[simp] theorem State.requeue_n : (s.requeue).n = s.n := rfl
@[simp] theorem State.requeue_raw : (s.requeue).raw = s.raw := rfl
@[simp] theorem State.requeue_crcRun : (s.requeue).crcRun = s.crcRun := rfl
@[simp] theorem State.requeue_pq : (s.requeue).pq = s.raw.slice 1 s.n ++ s.pq := rfl
@[simp] theorem State.requeue_status : (s.requeue).status = s.status := rfl
@[simp] theorem State.requeue_port : (s.requeue).port = s.port := rfl

@[simp] theorem State.resetBlock_rxState : (s.resetBlock).rxState = .seeking := rfl
@[simp] theorem State.resetBlock_ver : (s.resetBlock).ver = .v1 := rfl
@[simp] theorem State.resetBlock_n : (s.resetBlock).n = 0 := rfl
@[simp] theorem State.resetBlock_raw : (s.resetBlock).raw = [] := rfl
@[simp] theorem State.resetBlock_crcRun : (s.resetBlock).crcRun = 0xFFFF := rfl
@[simp] theorem State.resetBlock_pq : (s.resetBlock).pq = [] := rfl
@[simp] theorem State.resetBlock_status : (s.resetBlock).status = 0 := rfl
@[simp] theorem State.resetBlock_port : (s.resetBlock).port = s.port := rfl

@[simp] theorem State.withFetchWord_rxState (nbits w : Nat) : (s.withFetchWord nbits w).rxState = s.rxState := rfl
@[simp] theorem State.withFetchWord_ver (nbits w : Nat) : (s.withFetchWord nbits w).ver = s.ver := rfl
@[simp] theorem State.withFetchWord_n (nbits w : Nat) : (s.withFetchWord nbits w).n = s.n := rfl
@[simp] theorem State.withFetchWord_raw (nbits w : Nat) : (s.withFetchWord nbits w).raw = s.raw := rfl
@[simp] theorem State.withFetchWord_crcRun (nbits w : Nat) : (s.withFetchWord nbits w).crcRun = s.crcRun := rfl
@[simp] theorem State.withFetchWord_pq (nbits w : Nat) : (s.withFetchWord nbits w).pq = s.pq := rfl
@[simp] theorem State.withFetchWord_status (nbits w : Nat) : (s.withFetchWord nbits w).status = s.status := rfl
@[simp] theorem State.withFetchWord_port (nbits w : Nat) : (s.withFetchWord nbits w).port = .issue (unitOfTableWord nbits w) :: s.port := rfl

@[simp] theorem State.withPort_rxState (p : List HostEvent) : ({ s with port := p } : State).rxState = s.rxState := rfl
@[simp] theorem State.withPort_ver (p : List HostEvent) : ({ s with port := p } : State).ver = s.ver := rfl
@[simp] theorem State.withPort_n (p : List HostEvent) : ({ s with port := p } : State).n = s.n := rfl
@[simp] theorem State.withPort_raw (p : List HostEvent) : ({ s with port := p } : State).raw = s.raw := rfl
@[simp] theorem State.withPort_crcRun (p : List HostEvent) : ({ s with port := p } : State).crcRun = s.crcRun := rfl
@[simp] theorem State.withPort_pq (p : List HostEvent) : ({ s with port := p } : State).pq = s.pq := rfl
@[simp] theorem State.withPort_status (p : List HostEvent) : ({ s with port := p } : State).status = s.status := rfl
@[simp] theorem State.withPort_port (p : List HostEvent) : ({ s with port := p } : State).port = p := rfl

@[simp] theorem State.reset_rxState : State.reset.rxState = .seeking := rfl
@[simp] theorem State.reset_ver : State.reset.ver = .v1 := rfl
@[simp] theorem State.reset_n : State.reset.n = 0 := rfl
@[simp] theorem State.reset_raw : State.reset.raw = [] := rfl
@[simp] theorem State.reset_crcRun : State.reset.crcRun = 0xFFFF := rfl
@[simp] theorem State.reset_pq : State.reset.pq = [] := rfl
@[simp] theorem State.reset_status : State.reset.status = 0 := rfl
@[simp] theorem State.reset_port : State.reset.port = [] := rfl

end Sys2Proof.Machine
end

