-- ==== Sys2Proof/Laws/Receiver.lean ====
section
/-! SUPPORT. The laws of the receiver's shared operations: what guarded, Consume, PUSH and Drain can do. -/

namespace Sys2Proof.Machine

/-! ### guarded -/

theorem guarded_of_codesLegal {s : State} (h : s.codesLegal) (t : State) : guarded s t = .next t := by
  unfold State.codesLegal at h
  simp [guarded, h]

theorem guarded_eq_next {s t u : State} : guarded s t = .next u ↔ s.codesLegal ∧ u = t := by
  unfold guarded State.codesLegal
  cases s.codeFault <;> simp [eq_comm]

theorem guarded_eq_fault {s t : State} {f : Fault} : guarded s t = .fault f ↔ s.codeFault = some f := by
  unfold guarded
  cases s.codeFault <;> simp

/-- Legal codes, read off the two registers. -/
theorem codesLegal_iff {s : State} : s.codesLegal ↔ s.rxState.unused = false ∧ statusUnused s.status = false := by
  unfold State.codesLegal State.codeFault
  cases s.rxState.unused <;> cases statusUnused s.status <;> simp

theorem State.Inv.codesLegal {s : State} (h : s.Inv) : s.codesLegal := by
  rw [codesLegal_iff]
  constructor
  · have := h.countAgrees
    unfold State.countAgrees at this
    cases hr : s.rxState <;> simp_all [RxState.unused]
  · rcases h.statusProduced with h | h | h | h | h <;> rw [h] <;> decide

/-! ### Consume, case by case (R153 to R155) -/

variable {s : State} {b : Byte}

theorem consume_magic {v : Version} (h : s.rxState = .seeking) (hb : versionOf b = some v) :
    s.consume b = s.openCandidate v b := by simp [State.consume, h, hb]

theorem consume_noise (h : s.rxState = .seeking) (hb : versionOf b = none) : s.consume b = s := by
  simp [State.consume, h, hb]

theorem consume_header (h : s.rxState = .header) : s.consume b = ((s.store b).foldCrc b).advance := by
  simp [State.consume, h]

theorem consume_payload (h : s.rxState = .payload) : s.consume b = ((s.store b).foldCrc b).advance := by
  simp [State.consume, h]

theorem consume_checksum (h : s.rxState = .checksum) : s.consume b = (s.store b).advance := by
  simp [State.consume, h]

theorem consume_signature (h : s.rxState = .signature) : s.consume b = (s.store b).advance := by
  simp [State.consume, h]

theorem consume_emit (h : s.rxState = .emit) : s.consume b = s := by simp [State.consume, h]

/-- The state advance of R155 moves along the chain of states, or stays. -/
theorem nextRx_chainStep (h : s.rxState.unused = false) (h0 : s.rxState ≠ .seeking) : chainStep s.rxState s.nextRx := by
  unfold State.nextRx
  cases hr : s.rxState <;> simp_all only [RxState.unused, chainStep, reduceCtorEq, ne_eq, not_false_eq_true, not_true_eq_false,
    Bool.true_eq_false] <;> (repeat' split) <;> simp

/-- Everything Consume can do. -/
theorem consume_cases (s : State) (b : Byte) :
    (s.rxState = .seeking ∧ ∃ v, versionOf b = some v ∧ s.consume b = s.openCandidate v b) ∨
    (s.rxState = .seeking ∧ versionOf b = none ∧ s.consume b = s) ∨
    ((s.rxState = .header ∨ s.rxState = .payload) ∧ s.consume b = ((s.store b).foldCrc b).advance) ∨
    ((s.rxState = .checksum ∨ s.rxState = .signature) ∧ s.consume b = (s.store b).advance) ∨
    ((s.rxState = .emit ∨ s.rxState = .unused6 ∨ s.rxState = .unused7) ∧ s.consume b = s) := by
  cases h : s.rxState <;> cases hb : versionOf b <;> simp [State.consume, h, hb]

@[simp] theorem consume_pq (s : State) (b : Byte) : (s.consume b).pq = s.pq := by
  rcases consume_cases s b with ⟨-, v, -, h⟩ | ⟨-, -, h⟩ | ⟨-, h⟩ | ⟨-, h⟩ | ⟨-, h⟩ <;> simp [h]

@[simp] theorem consume_port (s : State) (b : Byte) : (s.consume b).port = s.port := by
  rcases consume_cases s b with ⟨-, v, -, h⟩ | ⟨-, -, h⟩ | ⟨-, h⟩ | ⟨-, h⟩ | ⟨-, h⟩ <;> simp [h]

@[simp] theorem consume_status (s : State) (b : Byte) : (s.consume b).status = s.status := by
  rcases consume_cases s b with ⟨-, v, -, h⟩ | ⟨-, -, h⟩ | ⟨-, h⟩ | ⟨-, h⟩ | ⟨-, h⟩ <;> simp [h]

/-- Consume counts at most one byte. -/
theorem consume_n_le (s : State) (b : Byte) : (s.consume b).n ≤ s.n + 1 := by
  rcases consume_cases s b with ⟨-, v, -, h⟩ | ⟨-, -, h⟩ | ⟨-, h⟩ | ⟨-, h⟩ | ⟨-, h⟩ <;> simp [h]

/-- Consume does not look at the replay queue. -/
theorem consume_withPq (s : State) (q : List Byte) (b : Byte) :
    ({ s with pq := q } : State).consume b = { s.consume b with pq := q } := by
  obtain ⟨rx, ver, n, raw, crc, pq, status, port⟩ := s
  cases rx with
  | seeking => cases hb : versionOf b <;> simp [State.consume, hb, State.openCandidate]
  | _ => rfl

theorem foldl_consume_withPq (bs q : List Byte) (s : State) :
    bs.foldl State.consume { s with pq := q } = { bs.foldl State.consume s with pq := q } := by
  induction bs generalizing s with
  | nil => rfl
  | cons b bs ih => simp only [List.foldl_cons, consume_withPq, ih]

@[simp] theorem foldl_consume_pq (bs : List Byte) (s : State) : (bs.foldl State.consume s).pq = s.pq := by
  induction bs generalizing s with
  | nil => rfl
  | cons b bs ih => simp [ih]

@[simp] theorem foldl_consume_port (bs : List Byte) (s : State) : (bs.foldl State.consume s).port = s.port := by
  induction bs generalizing s with
  | nil => rfl
  | cons b bs ih => simp [ih]

@[simp] theorem foldl_consume_status (bs : List Byte) (s : State) : (bs.foldl State.consume s).status = s.status := by
  induction bs generalizing s with
  | nil => rfl
  | cons b bs ih => simp [ih]

/-! ### PUSH (R160) -/

theorem push_emit (h : s.rxState = .emit) : s.push b = s.report .notReady := by simp [State.push, h]

theorem push_of_ne_emit (h : s.rxState ≠ .emit) :
    s.push b = (s.consume b).report (if (s.consume b).rxState = .emit then .ok else .incomplete) := by
  simp [State.push, h]

@[simp] theorem push_pq (s : State) (b : Byte) : (s.push b).pq = s.pq := by
  by_cases h : s.rxState = .emit
  · simp [push_emit h]
  · simp [push_of_ne_emit h]

@[simp] theorem push_port (s : State) (b : Byte) : (s.push b).port = s.port := by
  by_cases h : s.rxState = .emit
  · simp [push_emit h]
  · simp [push_of_ne_emit h]

@[simp] theorem pushAll_nil (s : State) : s.pushAll [] = s := rfl

@[simp] theorem pushAll_cons (s : State) (b : Byte) (bs : List Byte) : s.pushAll (b :: bs) = (s.push b).pushAll bs := rfl

@[simp] theorem pushAll_pq (s : State) (bs : List Byte) : (s.pushAll bs).pq = s.pq := by
  induction bs generalizing s with
  | nil => rfl
  | cons b bs ih => simp [ih]

@[simp] theorem pushAll_port (s : State) (bs : List Byte) : (s.pushAll bs).port = s.port := by
  induction bs generalizing s with
  | nil => rfl
  | cons b bs ih => simp [ih]

/-! ### Drain (R156) -/

/-- Everything Drain can do: some number k of queued bytes is scanned, the rest stays queued; scanning stops exactly when the queue
is empty or a frame is held. -/
theorem drainFrom_spec (q : List Byte) (s : State) :
    ∃ k, k ≤ q.length ∧ State.drainFrom q s = { (q.take k).foldl State.consume s with pq := q.drop k } ∧
      (((q.take k).foldl State.consume s).rxState = .emit ∨ k = q.length) ∧
      ∀ j, j < k → ((q.take j).foldl State.consume s).rxState ≠ .emit := by
  induction q generalizing s with
  | nil => exact ⟨0, by simp [State.drainFrom]⟩
  | cons b q ih =>
    by_cases h : s.rxState = .emit
    · exact ⟨0, by simp [State.drainFrom, h]⟩
    · obtain ⟨k, hk, hd, he, hn⟩ := ih (s.consume b)
      refine ⟨k + 1, by simpa using hk, by simp [State.drainFrom, h, hd], by simpa using he, ?_⟩
      intro j hj
      cases j with
      | zero => simpa using h
      | succ j => simpa using hn j (by omega)

@[simp] theorem drain_port (s : State) : s.drain.port = s.port := by
  obtain ⟨k, -, hd, -, -⟩ := drainFrom_spec s.pq s
  simp [State.drain, hd]

@[simp] theorem drain_status (s : State) : s.drain.status = s.status := by
  obtain ⟨k, -, hd, -, -⟩ := drainFrom_spec s.pq s
  simp [State.drain, hd]

/-- A property Consume keeps outside EMIT, and that does not look at the queue, is kept by Drain. -/
theorem drainFrom_keeps {P : State → Prop} (hc : ∀ s b, P s → s.rxState ≠ .emit → P (s.consume b))
    (hq : ∀ s q, P s → P { s with pq := q }) (q : List Byte) (s : State) (h : P s) : P (State.drainFrom q s) := by
  induction q generalizing s with
  | nil => exact hq _ _ h
  | cons b q ih =>
    unfold State.drainFrom
    split
    · exact hq _ _ h
    · exact ih _ (hc _ _ h ‹_›)

/-- Drain ends with the queue empty or a frame held (R156, R30). -/
theorem drainFrom_stops (q : List Byte) (s : State) : (State.drainFrom q s).rxState = .emit ∨ (State.drainFrom q s).pq = [] := by
  obtain ⟨k, -, hd, he | he, -⟩ := drainFrom_spec q s
  · left; rw [hd]; exact he
  · right; rw [hd]; simp [he]

end Sys2Proof.Machine
end

