-- ==== Sys2Proof/Laws/Invariant.lean ====
section
/-! SUPPORT. What Consume keeps: the part of the invariant that is about the candidate alone (10_state.md R29, R32, R24). -/

namespace Sys2Proof.Machine

/-- The part of the invariant that does not name the queue, the status or the port. -/
structure CandidateInv (s : State) : Prop where
  countAgrees : s.countAgrees
  crcAgrees : s.crcAgrees
  magicHeld : s.magicHeld
  rawWf : s.raw.wf = true

theorem State.Inv.candidate {s : State} (h : s.Inv) : CandidateInv s := ⟨h.countAgrees, h.crcAgrees, h.magicHeld, h.rawWf⟩

theorem CandidateInv.withPq {s : State} (h : CandidateInv s) (q : List Byte) : CandidateInv { s with pq := q } :=
  ⟨h.countAgrees, h.crcAgrees, h.magicHeld, h.rawWf⟩

theorem CandidateInv.withPort {s : State} (h : CandidateInv s) (p : List HostEvent) : CandidateInv { s with port := p } :=
  ⟨h.countAgrees, h.crcAgrees, h.magicHeld, h.rawWf⟩

theorem CandidateInv.report {s : State} (h : CandidateInv s) (c : Code) : CandidateInv (s.report c) :=
  ⟨h.countAgrees, h.crcAgrees, h.magicHeld, h.rawWf⟩

theorem State.total_eq (s : State) : s.total = s.hdrLen + s.len + 2 + (if s.signed then 13 else 0) := rfl

theorem State.total_le (s : State) : s.total ≤ 280 := by
  have h1 := s.ver.hdrLen_bounds
  have h2 : s.len < 256 := (s.raw.read 1).isLt
  have h3 : s.hdrLen = s.ver.hdrLen := rfl
  rw [State.total_eq]
  split <;> omega

/-- A count that agrees with its state is at most 280 (R31). -/
theorem State.n_le_of_countAgrees {s : State} (h : s.countAgrees) : s.n ≤ 280 := by
  have h1 := s.ver.hdrLen_bounds
  have h2 := s.total_le
  have h3 := s.total_eq
  have h4 : s.hdrLen = s.ver.hdrLen := rfl
  unfold State.countAgrees at h
  split at h <;> first | contradiction | (split at h3 <;> omega)

/-- Storing at index n leaves the length byte alone, once it is in. -/
theorem State.store_len (s : State) (b : Byte) (h : s.n ≠ 1) : (s.store b).len = s.len := by
  unfold State.len
  rw [State.store_raw]
  split
  · rw [Memory.read_write_of_ne _ _ (by omega)]
  · rfl

/-- Storing at index n leaves the signed flag alone, once it is in. -/
theorem State.store_signed (s : State) (b : Byte) (h : s.n ≠ 2) : (s.store b).signed = s.signed := by
  unfold State.signed
  rw [State.store_raw, State.store_ver]
  split
  · rw [Memory.read_write_of_ne _ _ (by omega)]
  · rfl

theorem openCandidate_keeps {s : State} {b : Byte} {v : Version} (hb : versionOf b = some v) (h : s.raw.wf = true) :
    CandidateInv (s.openCandidate v b) where
  countAgrees := by
    have := v.hdrLen_bounds
    simp only [State.countAgrees, State.openCandidate_rxState, State.openCandidate_n, State.hdrLen, State.openCandidate_ver]
    omega
  crcAgrees := by simp [State.crcAgrees, State.crcReach, crcCompute, Config.crcInit]
  magicHeld := fun _ => by simpa [Memory.read_write_same h] using versionOf_eq_some.mp hb
  rawWf := Memory.wf_write h (by decide) b

/-- Consume keeps the candidate's part of the invariant. -/
theorem consume_keeps {s : State} (h : CandidateInv s) (b : Byte) : CandidateInv (s.consume b) := by
  have hn := State.n_le_of_countAgrees h.countAgrees
  have hH := s.ver.hdrLen_bounds
  have hH' : s.hdrLen = s.ver.hdrLen := rfl
  have hT := s.total_eq
  have hTle := s.total_le
  have hC := h.countAgrees
  have hR := h.crcAgrees
  unfold State.countAgrees at hC
  unfold State.crcAgrees at hR
  -- in a candidate there is room, the magic is in, and the header length stays
  have stored (hlt : s.n < 280) (h1 : 1 ≤ s.n) :
      (s.store b).raw = s.raw.write s.n b ∧ (s.store b).raw.read 0 = s.raw.read 0 ∧ (s.store b).raw.wf = true := by
    have e : (s.store b).raw = s.raw.write s.n b := by simp [Config.rawCap, hlt]
    rw [e]
    exact ⟨rfl, Memory.read_write_of_ne _ _ (by omega), Memory.wf_write h.rawWf hlt b⟩
  rcases consume_cases s b with ⟨-, v, hb, e⟩ | ⟨-, -, e⟩ | ⟨hr, e⟩ | ⟨hr, e⟩ | ⟨-, e⟩
  · rw [e]; exact openCandidate_keeps hb h.rawWf
  · rw [e]; exact h
  · -- HEADER and PAYLOAD: the byte is checksummed
    have hlt : 1 ≤ s.n ∧ s.n < 280 ∧ s.n < s.hdrLen + s.len + 1 ∧ (s.n < s.hdrLen ∨ s.n < s.hdrLen + s.len) := by
      rcases hr with hr | hr <;> simp only [hr] at hC <;> split at hT <;> omega
    obtain ⟨eRaw, e0, ewf⟩ := stored hlt.2.1 hlt.1
    have hreach : s.crcReach = s.n := by unfold State.crcReach; split <;> omega
    have hcrc : s.crcRun = crcCompute (s.raw.slice 1 s.n) := by
      rcases hr with hr | hr <;> simpa [hr, hreach] using hR
    have hlen (hne : s.n ≠ 1) : ((s.store b).foldCrc b).len = s.len := s.store_len b hne
    have hhdr : ((s.store b).foldCrc b).hdrLen = s.hdrLen := rfl
    rw [e]
    have hrx : ((s.store b).foldCrc b).nextRx ≠ .seeking := by
      unfold State.nextRx
      rcases hr with hr | hr <;> simp only [State.foldCrc_rxState, State.store_rxState, hr] <;> (repeat' split) <;> simp
    refine ⟨?_, ?_, ?_, ?_⟩
    · unfold State.countAgrees
      rcases hr with hr | hr
      · simp only [hr] at hC
        by_cases hN : s.n + 1 = s.hdrLen
        · have hl := hlen (by omega)
          have hx : ((s.store b).foldCrc b).nextRx = if 0 < s.len then .payload else .checksum := by
            simp [State.nextRx, hr, hN, hhdr, hl]
          simp only [State.advance_rxState, hx]
          have e1 : (((s.store b).foldCrc b).advance).hdrLen = s.hdrLen := rfl
          have e2 : (((s.store b).foldCrc b).advance).len = s.len := hl
          have e3 : (((s.store b).foldCrc b).advance).n = s.n + 1 := rfl
          by_cases h0 : 0 < s.len <;> simp only [h0, if_true, if_false, e1, e2, e3] <;> omega
        · have hx : ((s.store b).foldCrc b).nextRx = .header := by simp [State.nextRx, hr, hN, hhdr]
          simp only [State.advance_rxState, hx]
          have e1 : (((s.store b).foldCrc b).advance).hdrLen = s.hdrLen := rfl
          have e3 : (((s.store b).foldCrc b).advance).n = s.n + 1 := rfl
          rw [e1, e3]; omega
      · simp only [hr] at hC
        have hl := hlen (by omega)
        have hx : ((s.store b).foldCrc b).nextRx = if s.n + 1 = s.hdrLen + s.len then .checksum else .payload := by
          simp [State.nextRx, hr, hhdr, hl]
        simp only [State.advance_rxState, hx]
        have e1 : (((s.store b).foldCrc b).advance).hdrLen = s.hdrLen := rfl
        have e2 : (((s.store b).foldCrc b).advance).len = s.len := hl
        have e3 : (((s.store b).foldCrc b).advance).n = s.n + 1 := rfl
        by_cases h0 : s.n + 1 = s.hdrLen + s.len <;> simp only [h0, if_true, if_false, e1, e2, e3] <;> omega
    · unfold State.crcAgrees
      rw [if_neg (by simpa using hrx)]
      have hreach' : (((s.store b).foldCrc b).advance).crcReach = s.n + 1 := by
        unfold State.crcReach
        have e1 : (((s.store b).foldCrc b).advance).hdrLen = s.hdrLen := rfl
        have e3 : (((s.store b).foldCrc b).advance).n = s.n + 1 := rfl
        rw [e1, e3]
        by_cases h2 : s.n = 1
        · rw [if_neg (by omega)]; omega
        · have e2 : (((s.store b).foldCrc b).advance).len = s.len := hlen h2
          rw [e2]
          split <;> omega
      rw [hreach']
      simp only [State.advance_raw, State.advance_crcRun, State.foldCrc_raw, State.foldCrc_crcRun, State.store_crcRun, eRaw]
      rw [Memory.slice_write_end h.rawWf (by omega), crcCompute_concat, ← hcrc]
    · intro _
      have := h.magicHeld (by rcases hr with hr | hr <;> simp [hr])
      simp only [State.advance_raw, State.foldCrc_raw, State.advance_ver, State.foldCrc_ver, State.store_ver, e0, this]
    · simpa using ewf
  · -- CHECKSUM and SIGNATURE: the byte is not checksummed
    have hlt : 6 ≤ s.n ∧ s.n < 280 ∧ s.hdrLen + s.len ≤ s.n := by
      rcases hr with hr | hr <;> simp only [hr] at hC <;> split at hT <;> omega
    obtain ⟨eRaw, e0, ewf⟩ := stored hlt.2.1 (by omega)
    have hl : (s.store b).len = s.len := s.store_len b (by omega)
    have hs : (s.store b).signed = s.signed := s.store_signed b (by omega)
    have hhdr : (s.store b).hdrLen = s.hdrLen := rfl
    have hTot : (s.store b).total = s.total := by rw [State.total_eq, State.total_eq, hl, hs, hhdr]
    rw [e]
    have e1 : ((s.store b).advance).hdrLen = s.hdrLen := rfl
    have e2 : ((s.store b).advance).len = s.len := hl
    have e3 : ((s.store b).advance).n = s.n + 1 := rfl
    have e4 : ((s.store b).advance).total = s.total := hTot
    have hrx : (s.store b).nextRx ≠ .seeking := by
      unfold State.nextRx
      rcases hr with hr | hr <;> simp only [State.store_rxState, hr] <;> (repeat' split) <;> simp
    refine ⟨?_, ?_, ?_, ?_⟩
    · unfold State.countAgrees
      rcases hr with hr | hr
      · simp only [hr] at hC
        have hx : (s.store b).nextRx =
            if s.n + 1 = s.hdrLen + s.len + 2 then (if s.signed then .signature else .emit) else .checksum := by
          simp [State.nextRx, hr, hhdr, hl, hs, Config.ckLen]
        simp only [State.advance_rxState, hx]
        by_cases h0 : s.n + 1 = s.hdrLen + s.len + 2
        · cases hsg : s.signed <;> simp only [hsg, if_true, if_false, Bool.false_eq_true] at hT <;>
            simp only [h0, if_true, if_false, Bool.false_eq_true, e1, e2, e3, e4] <;> omega
        · simp only [h0, if_false, e1, e2, e3]; omega
      · simp only [hr] at hC
        have hx : (s.store b).nextRx = if s.n + 1 = s.total then .emit else .signature := by
          simp [State.nextRx, hr, hTot]
        simp only [State.advance_rxState, hx]
        by_cases h0 : s.n + 1 = s.total
        · simp only [h0, if_true, e3, e4]
        · simp only [h0, if_false, e1, e2, e3, e4]; omega
    · unfold State.crcAgrees
      rw [if_neg (by simpa using hrx)]
      have hreach : s.crcReach = s.hdrLen + s.len := by unfold State.crcReach; split <;> omega
      have hreach' : ((s.store b).advance).crcReach = s.hdrLen + s.len := by
        unfold State.crcReach; rw [e1, e2, e3]; split <;> omega
      have hcrc : s.crcRun = crcCompute (s.raw.slice 1 (s.hdrLen + s.len)) := by
        rcases hr with hr | hr <;> simpa [hr, hreach] using hR
      rw [hreach']
      simp only [State.advance_raw, State.advance_crcRun, State.store_crcRun, eRaw]
      rw [Memory.slice_write_beyond _ (by omega), hcrc]
    · intro _
      have := h.magicHeld (by rcases hr with hr | hr <;> simp [hr])
      simp only [State.advance_raw, State.advance_ver, State.store_ver, e0, this]
    · simpa using ewf
  · rw [e]; exact h

theorem release_keeps {s : State} (h : s.raw.wf = true) : CandidateInv s.release where
  countAgrees := rfl
  crcAgrees := rfl
  magicHeld := fun h => absurd rfl h
  rawWf := h

/-- Drain keeps the candidate's part of the invariant. -/
theorem drainFrom_keepsCandidate (q : List Byte) {s : State} (h : CandidateInv s) : CandidateInv (State.drainFrom q s) :=
  drainFrom_keeps (P := CandidateInv) (fun _ b h _ => consume_keeps h b) (fun _ q h => h.withPq q) q s h

end Sys2Proof.Machine
end

