-- ==== Sys2Proof/Laws/PerInstr.lean ====
section
/-! SUPPORT. Statements made for each constructor of Instr. -/

/-! ### UnitSize: the port unit of a well-formed instruction has the size its format gives it (R7, R70, R79, R83, R153) -/

namespace Sys2Proof.Laws.UnitSize

/-- Whether a unit has a size its format allows: a command or a wire byte always, a PUSHS at least one word, a frame 8 to 280
bytes that start with a magic byte. -/
def fits : PortUnit → Prop
  | .command _ => True
  | .commands ws => ws ≠ []
  | .wireByte _ => True
  | .wireFrame bs => 8 ≤ bs.length ∧ bs.length ≤ 280 ∧ versionOf (byteAt bs 0) ≠ none

/-- The statement of the family: a well-formed instruction is encoded as a unit that fits. -/
def Statement (i : Instr) : Prop := i.wellFormed = true → fits (encode i)

theorem wireFrame_fits {r : FrameRecord} (h : r.wellFormed = true) : fits (.wireFrame r.wireBytes) := by
  obtain ⟨h1, h2⟩ := FrameRecord.wireBytes_bounds h
  exact ⟨h1, h2, by simp [r.byteAt_wireBytes_zero]⟩

theorem nop (arg : Byte) : Statement (.nop arg) := fun _ => trivial

theorem push (b : Byte) : Statement (.push b) := fun _ => trivial

theorem validate (crcExtra : Byte) : Statement (.validate crcExtra) := fun _ => trivial

theorem accept (arg : Byte) : Statement (.accept arg) := fun _ => trivial

theorem reject (arg : Byte) : Statement (.reject arg) := fun _ => trivial

theorem abort (arg : Byte) : Statement (.abort arg) := fun _ => trivial

theorem reserved (op arg : Byte) : Statement (.reserved op arg) := fun _ => trivial

theorem pushs (bytes : List Byte) : Statement (.pushs bytes) := by
  intro h
  simpa [encode, fits, Instr.wellFormed] using h

theorem sofV1 : Statement .sofV1 := fun _ => trivial

theorem sofV2 : Statement .sofV2 := fun _ => trivial

theorem noise (b : Byte) : Statement (.noise b) := fun _ => trivial

theorem v1Frame (r : FrameRecord) : Statement (.v1Frame r) := by
  intro h
  simp only [Instr.wellFormed, Bool.and_eq_true] at h
  exact wireFrame_fits h.1

theorem v2FrameUnsigned (r : FrameRecord) : Statement (.v2FrameUnsigned r) := by
  intro h
  simp only [Instr.wellFormed, Bool.and_eq_true] at h
  exact wireFrame_fits h.1.1

theorem v2FrameSigned (r : FrameRecord) : Statement (.v2FrameSigned r) := by
  intro h
  simp only [Instr.wellFormed, Bool.and_eq_true] at h
  exact wireFrame_fits h.1.1

end Sys2Proof.Laws.UnitSize
end

