-- ==== Sys2Proof/Tests/Slice0.lean ====
section
/-! SUPPORT. The model's own tests. Expected values come from spec/ alone: the encodings of 30_encoding.md and the vectors of 95_test_vectors.md, named in each docstring. The witnesses at the end show states and operands that meet the hypotheses of the statements. -/

namespace Sys2Proof.Tests

open Sys2Proof Sys2Proof.Machine

set_option Elab.async false

/-! ### Frames and states of 95_test_vectors.md -/

def f1 : List Byte := [0xFE, 0x09, 0x00, 0x01, 0x01, 0x00, 0x00, 0x00, 0x00, 0x00, 0x02, 0x03, 0x51, 0x04, 0x03, 0x7D, 0xDD]

def f3 : List Byte := [0xFD, 0x02, 0x00, 0x00, 0x05, 0xFF, 0xBE, 0x02, 0x01, 0x00, 0x01, 0x02, 0x7E, 0x7D]

def f4 : List Byte :=
  [0xFD, 0x03, 0x01, 0x00, 0x07, 0x01, 0x01, 0x2C, 0x01, 0x00, 0x11, 0x22, 0x33, 0x28, 0x99] ++
    [0x05, 0xAB, 0x89, 0x67, 0x45, 0x23, 0x01, 0xAA, 0xBB, 0xCC, 0xDD, 0xEE, 0xFF]

def f5 : List Byte := [0xFD, 0x00, 0x00, 0x00, 0xFF, 0x02, 0x03, 0x56, 0x34, 0x12, 0xDA, 0xDA]

def f6 : List Byte := [0xFE, 0x00, 0xFF, 0x09, 0x08, 0x07, 0x02, 0x9F]

def f7 : List Byte :=
  [0xFD, 0x08, 0x02, 0x00, 0x01, 0x01, 0x01, 0x01, 0x00, 0x00, 0x00, 0x00, 0x00, 0x00, 0x00, 0x00, 0x00, 0x00, 0x40, 0x8C]

def r1 : FrameRecord :=
  { version := .v1, len := 9, incompat := 0, compat := 0, seq := 0, sys := 1, comp := 1, msgid := 0,
    payload := [0x00, 0x00, 0x00, 0x00, 0x02, 0x03, 0x51, 0x04, 0x03], checksum := 0xDD7D, sig := none }

def r3 : FrameRecord :=
  { version := .v2, len := 2, incompat := 0, compat := 0, seq := 5, sys := 255, comp := 190, msgid := 0x000102,
    payload := [0x01, 0x02], checksum := 0x7D7E, sig := none }

/-- The record of F3 before trimming. -/
def r3u : FrameRecord := { r3 with len := 5, payload := [0x01, 0x02, 0x00, 0x00, 0x00] }

def r4 : FrameRecord :=
  { version := .v2, len := 3, incompat := 1, compat := 0, seq := 7, sys := 1, comp := 1, msgid := 300,
    payload := [0x11, 0x22, 0x33], checksum := 0x9928,
    sig := some { linkId := 5, timestamp := 0x0123456789AB, signature := #v[0xAA, 0xBB, 0xCC, 0xDD, 0xEE, 0xFF] } }

/-- The state after the bytes of a sequence are pushed from reset. -/
def pushed (f : List Byte) : State := State.reset.pushAll f

/-- The fake candidate of program P3, and the bytes around F6 in its stream. -/
def p3Before : List Byte := [0xFE, 0x14, 0x01, 0x02, 0x03, 0x04]

def p3After : List Byte := [0x30, 0x31, 0x32, 0x33, 0x34, 0x35, 0x36, 0x37, 0x38, 0x39, 0x3A, 0x3B, 0x3C, 0x3D]

/-- The stream of program P5. -/
def p5 : List Byte := [0xFE, 0x10, 0x01, 0x02, 0x03, 0x04] ++ f6 ++ f6 ++ [0xAA, 0xBB]

/-- The step that runs a 16-bit command word in a state. -/
def issue (w : Nat) (s : State) : Host.Outcome State Fault Refusal := step (s.withFetchWord 16 w)

/-- What the tables of the programs show of an outcome: rx_state, n, PQ, crc_run, status. -/
def seen : Host.Outcome State Fault Refusal → Option (RxState × Nat × List Byte × Word × BitVec 4)
  | .next s => some (s.rxState, s.n, s.pq, s.crcRun, s.status)
  | .fault _ => none
  | .refused _ => none

/-- The next state of an outcome, or the reset state where it stops. -/
def after : Host.Outcome State Fault Refusal → State
  | .next s => s
  | .fault _ => State.reset
  | .refused _ => State.reset

/-! ### WellFormed refuses an ill-formed term for each check -/

theorem test_wellFormed_reserved_below_six : (Instr.reserved 5 0).wellFormed = false := by decide

theorem test_wellFormed_pushs_empty : (Instr.pushs []).wellFormed = false := by decide

theorem test_wellFormed_noise_magicV1 : (Instr.noise 0xFE).wellFormed = false := by decide

theorem test_wellFormed_noise_magicV2 : (Instr.noise 0xFD).wellFormed = false := by decide

theorem test_wellFormed_payload_length : (Instr.v1Frame { r1 with len := 8 }).wellFormed = false := by decide

theorem test_wellFormed_v1_incompat : (Instr.v1Frame { r1 with incompat := 1 }).wellFormed = false := by decide

theorem test_wellFormed_v1_compat : (Instr.v1Frame { r1 with compat := 1 }).wellFormed = false := by decide

theorem test_wellFormed_v1_msgid : (Instr.v1Frame { r1 with msgid := 256 }).wellFormed = false := by decide

theorem test_wellFormed_v1_signature : (Instr.v1Frame { r1 with sig := r4.sig }).wellFormed = false := by decide

theorem test_wellFormed_v1_version : (Instr.v1Frame r3).wellFormed = false := by decide

theorem test_wellFormed_v2_missing_trailer : (Instr.v2FrameUnsigned { r3 with incompat := 1 }).wellFormed = false := by decide

theorem test_wellFormed_v2_extra_trailer : (Instr.v2FrameSigned { r4 with incompat := 2 }).wellFormed = false := by decide

theorem test_wellFormed_v2_version : (Instr.v2FrameUnsigned r1).wellFormed = false := by decide

theorem test_wellFormed_unsigned_signed : (Instr.v2FrameUnsigned r4).wellFormed = false := by decide

theorem test_wellFormed_signed_unsigned : (Instr.v2FrameSigned r3).wellFormed = false := by decide

/-! ### Decoding words written out from the spec's encodings -/

/-- R71: `xxxxxxxx00000000`; the operand byte is kept. -/
theorem test_decode_nop : decodeTableWord 16 0b1010010100000000 = some (.nop 0xA5) := by decide

/-- R71, R82: `PUSH 0xFE` is 0xFE01. -/
theorem test_decode_push : decodeTableWord 16 0b1111111000000001 = some (.push 0xFE) := by decide

/-- R71, R82: `VALIDATE 0x32` is 0x3202. -/
theorem test_decode_validate : decodeTableWord 16 0b0011001000000010 = some (.validate 0x32) := by decide

theorem test_decode_accept : decodeTableWord 16 0b0000000000000011 = some (.accept 0) := by decide

theorem test_decode_reject : decodeTableWord 16 0b0000000000000100 = some (.reject 0) := by decide

theorem test_decode_abort : decodeTableWord 16 0b0000000000000101 = some (.abort 0) := by decide

/-- R73, V-RX-13: 0x1206. -/
theorem test_decode_reserved_low : decodeTableWord 16 0b0001001000000110 = some (.reserved 0x06 0x12) := by decide

theorem test_decode_reserved_high : decodeTableWord 16 0b0000000011111111 = some (.reserved 0xFF 0x00) := by decide

/-- R83: a sequence of `AAAAAAAA00000001`, the first word lowest. -/
theorem test_decode_pushs : decodeTableWord 32 0b01010101000000010000000000000001 = some (.pushs [0x00, 0x55]) := by decide

/-- R83: a word that is not PUSH ends no PUSHS. -/
theorem test_decode_pushs_other_word : decodeTableWord 32 0b01010101000000100000000000000001 = none := by decide

theorem test_decode_sofV1 : decodeTableWord 8 0b11111110 = some .sofV1 := by decide

theorem test_decode_sofV2 : decodeTableWord 8 0b11111101 = some .sofV2 := by decide

theorem test_decode_noise : decodeTableWord 8 0b01010101 = some (.noise 0x55) := by decide

/-- R74, F1 byte by byte. -/
theorem test_decode_v1Frame : decode (.wireFrame f1) = .ok (.v1Frame r1) := by decide +kernel

/-- R75, F3 byte by byte: a message id of three bytes, low byte first. -/
theorem test_decode_v2FrameUnsigned : decode (.wireFrame f3) = .ok (.v2FrameUnsigned r3) := by decide +kernel

/-- R75, R76, F4 byte by byte. -/
theorem test_decode_v2FrameSigned : decode (.wireFrame f4) = .ok (.v2FrameSigned r4) := by decide +kernel

/-- R74: F6 as one number, its first byte lowest. -/
theorem test_decodeTableWord_v1Frame :
    (decodeTableWord 64 0x9F02070809FF00FE).map encode = some (.wireFrame f6) := by decide +kernel

/-- R75: F5 as one number, its first byte lowest. -/
theorem test_decodeTableWord_v2Frame :
    (decodeTableWord 96 0xDADA1234560302FF000000FD).map encode = some (.wireFrame f5) := by decide +kernel

/-- R127: a frame unit that ends early, and one with bytes after the frame. -/
theorem test_decode_frame_cut : decode (.wireFrame (f4.take 27)) = .error .frameIncomplete := by decide +kernel

theorem test_decode_frame_long : decode (.wireFrame (f6 ++ [0x00])) = .error .bytesAfterFrame := by decide +kernel

theorem test_decode_frame_no_magic : decode (.wireFrame (0x00 :: f6)) = .error .frameMalformed := by decide +kernel

theorem test_encode_frames :
    encode (.v1Frame r1) = .wireFrame f1 ∧ encode (.v2FrameUnsigned r3) = .wireFrame f3 ∧
      encode (.v2FrameSigned r4) = .wireFrame f4 := by decide +kernel

/-! ### Checksum Engine (V-CRC) -/

/-- V-CRC-1 to V-CRC-4. -/
theorem test_crcAccumulate :
    crcAccumulate 0xFFFF 0x00 = 0x0F87 ∧ crcAccumulate 0xFFFF 0xFF = 0x00FF ∧ crcAccumulate 0x0000 0x01 = 0x1189 ∧
      crcAccumulate 0x0001 0x00 = 0x1189 ∧ crcAccumulate 0x1234 0xAB = 0x6C6C ∧ crcAccumulate 0x8408 0x00 = 0x8CCC := by
  decide +kernel

/-- V-CRC-5 and V-CRC-6. -/
theorem test_crcCompute_check :
    crcCompute [0x31, 0x32, 0x33, 0x34, 0x35, 0x36, 0x37, 0x38, 0x39] = 0x6F91 ∧
      crcCompute [0x31, 0x32, 0x33, 0x34, 0x35, 0x36, 0x37, 0x38, 0x39] ^^^ 0xFFFF = 0x906E := by decide +kernel

/-- V-CRC-7. -/
theorem test_checksum_empty : checksum [] 0x00 = 0x0F87 ∧ checksum [] 0x32 = 0x1D16 := by decide +kernel

/-- V-CRC-10. -/
theorem test_crcTable :
    crcTable 0x00 = 0x0000 ∧ crcTable 0x01 = 0x1189 ∧ crcTable 0x80 = 0x8408 ∧ crcTable 0xFF = 0x0F78 := by decide +kernel

/-- V-CRC-11 and V-CRC-12. -/
theorem test_checksum_f1 :
    checksum (checksumBody f1 6 9) 50 = 0xDD7D ∧ checksumWith 0xFFFF (checksumBody f1 6 9) 50 = 0x2282 := by decide +kernel

/-! ### Header Codec (V-HDR) -/

/-- V-HDR-1 to V-HDR-4. -/
theorem test_headerDecode :
    headerDecode [] = .error .bufferTooShort ∧ headerDecode [0x55, 0xFE, 0x09] = .error .malformed ∧
      headerDecode [0xFD, 0x00, 0x00, 0x00, 0xFF, 0x02] = .error .bufferTooShort ∧
      headerDecode [0xFE, 0x00, 0xFF, 0x09, 0x08, 0x07] =
        .ok ({ len := 0, incompat := 0, compat := 0, seq := 255, sys := 9, comp := 8, msgid := 7 }, .v1) := by decide +kernel

/-- V-HDR-5. -/
theorem test_headerDecode_msgid :
    headerDecode f5 =
      .ok ({ len := 0, incompat := 0, compat := 0, seq := 255, sys := 2, comp := 3, msgid := 0x123456 }, .v2) := by
  decide +kernel

/-- V-HDR-6 to V-HDR-9. -/
theorem test_frameDecode :
    frameDecode [] = .error .incomplete ∧ frameDecode (f6.take 7) = .error .incomplete ∧
      frameDecode (0x00 :: f6) = .error .malformed ∧ frameDecode (f1 ++ [0x00]) = .ok (r1, 17) ∧
      frameDecode f4 = .ok (r4, 28) := by decide +kernel

/-- V-HDR-12, V-HDR-13: trimming, and the message as given. -/
theorem test_frameEncode_trim :
    frameEncode r3u 0x7A true = some f3 ∧
      frameEncode r3u 0x7A false =
        some [0xFD, 0x05, 0x00, 0x00, 0x05, 0xFF, 0xBE, 0x02, 0x01, 0x00, 0x01, 0x02, 0x00, 0x00, 0x00, 0x8E, 0x7A] := by
  decide +kernel

/-- V-HDR-15, V-HDR-16, V-HDR-18. -/
theorem test_frameEncode_versions :
    frameEncode r1 50 true = some f1 ∧ frameEncode { r1 with sig := r4.sig } 50 false = none ∧
      frameEncode { r4 with incompat := 0 } 0x99 false = some f4 := by decide +kernel

/-- D16 (log 19): a V1 record with a flag byte. -/
theorem test_frameEncode_v1_incompat : frameEncode { r1 with incompat := 2 } 50 false = none := by decide +kernel

/-- V-HDR-17. -/
theorem test_trim :
    trim [] = [] ∧ trim [0x00] = [0x00] ∧ trim [0x00, 0x00] = [0x00] ∧
      trim [0x01, 0x00, 0x02, 0x00, 0x00] = [0x01, 0x00, 0x02] ∧ trim [0x01, 0x02] = [0x01, 0x02] := by decide +kernel

/-! ### One step of each instruction -/

/-- V-RX-11: NOP keeps a held frame and its status. -/
theorem test_nop_held : seen (issue 0x0000 (pushed f1)) = some (.emit, 17, [], 0xA859, 0) := by decide +kernel

/-- P4, command 5. -/
theorem test_nop_header :
    seen (issue 0x0000 (pushed [0xFD, 0x00, 0x00, 0x00])) = some (.header, 4, [], 0x3933, 1) := by decide +kernel

/-- R160's worked example and P1: noise from reset. -/
theorem test_push_noise : seen (issue 0x5501 State.reset) = some (.seeking, 0, [], 0xFFFF, 1) := by decide +kernel

/-- V-RX-10: a byte offered while a frame is held is not taken. -/
theorem test_push_held : seen (issue 0x4201 (pushed f1)) = some (.emit, 17, [], 0xA859, 9) := by decide +kernel

/-- V-RX-6: a header with `len = 0` goes straight to CHECKSUM. -/
theorem test_push_skips_payload : seen (issue 0x1201 (pushed (f5.take 9))) = some (.checksum, 10, [], 0x371C, 1) := by
  decide +kernel

/-- V-RX-7: the signed flag leads to SIGNATURE, and the checksum bytes are not checksummed. -/
theorem test_push_enters_signature : seen (issue 0x9901 (pushed (f4.take 14))) = some (.signature, 15, [], 0xC9D4, 1) := by
  decide +kernel

/-- V-RX-8. -/
theorem test_push_last_byte : seen (issue 0xFF01 (pushed (f4.take 27))) = some (.emit, 28, [], 0xC9D4, 0) := by decide +kernel

/-- V-VAL-1. -/
theorem test_validate_ok : seen (issue 0x3202 (pushed f1)) = some (.emit, 17, [], 0xA859, 0) := by decide +kernel

/-- V-VAL-2. -/
theorem test_validate_mismatch : seen (issue 0x3302 (pushed f1)) = some (.emit, 17, [], 0xA859, 3) := by decide +kernel

/-- V-VAL-5. -/
theorem test_validate_no_frame :
    seen (issue 0x3202 (pushed [0xFD, 0x00, 0x00, 0x00])) = some (.header, 4, [], 0x3933, 9) := by decide +kernel

/-- V-VAL-7: the trailer is not checksummed. -/
theorem test_validate_signed : seen (issue 0x9902 (pushed f4)) = some (.emit, 28, [], 0xC9D4, 0) := by decide +kernel

/-- P5, command 28: ACCEPT emits again from the queue. -/
theorem test_accept_emits_again :
    seen (issue 0x0003 (after (issue 0x0004 (pushed p5)))) = some (.emit, 8, [0xAA, 0xBB], 0xD33B, 0) := by decide +kernel

/-- V-RX-14. -/
theorem test_accept_nothing_held : seen (issue 0x0003 State.reset) = some (.seeking, 0, [], 0xFFFF, 9) := by decide +kernel

/-- P3, command 30. -/
theorem test_reject_recovers : seen (issue 0x0004 (pushed (p3Before ++ f6 ++ p3After))) =
    some (.emit, 8, p3After, 0xD33B, 0) := by decide +kernel

/-- V-RX-17. -/
theorem test_reject_reopens :
    seen (issue 0x0004 (pushed [0xFE, 0x03, 0x00, 0x00, 0x00, 0x00, 0x11, 0xFE, 0x05, 0xAA, 0xBB])) =
      some (.header, 4, [], 0x5959, 0) := by decide +kernel

/-- V-RX-20: the queued bytes are lost. -/
theorem test_abort_queue : seen (issue 0x0005 (after (issue 0x0004 (pushed p5)))) = some (.seeking, 0, [], 0xFFFF, 0) := by
  decide +kernel

/-- V-RX-21. -/
theorem test_abort_candidate :
    seen (issue 0x0005 (pushed [0xFD, 0x00, 0x00, 0x00, 0xFF])) = some (.seeking, 0, [], 0xFFFF, 0) := by decide +kernel

/-- V-RX-12. -/
theorem test_reserved_held : seen (issue 0x00FF (pushed f1)) = some (.emit, 17, [], 0xA859, 10) := by decide +kernel

/-- V-RX-13. -/
theorem test_reserved_arg :
    seen (issue 0x1206 (pushed [0xFD, 0x00, 0x00, 0x00])) = some (.header, 4, [], 0x3933, 10) := by decide +kernel

/-- V-RX-22 for F5. -/
theorem test_pushs_frame : seen (exec (.pushs f5) State.reset) = some (.emit, 12, [], 0x371C, 0) := by decide +kernel

/-- R153: 0xFE from reset. -/
theorem test_sofV1 : seen (step (State.reset.withFetchWord 8 0xFE)) = some (.header, 1, [], 0xFFFF, 1) := by decide +kernel

/-- V-RX-9: a magic byte inside a candidate is data. -/
theorem test_sofV1_inside :
    seen (step ((pushed p3Before).withFetchWord 8 0xFE)) = some (.payload, 7, [], 0xFEAB, 1) := by decide +kernel

theorem test_sofV2 : (after (step (State.reset.withFetchWord 8 0xFD))).ver = .v2 := by decide +kernel

theorem test_noise : seen (step (State.reset.withFetchWord 8 0x55)) = some (.seeking, 0, [], 0xFFFF, 1) := by decide +kernel

/-- F6 offered whole as the opcode table's word. -/
theorem test_v1Frame :
    seen (step (State.reset.withFetchWord 64 0x9F02070809FF00FE)) = some (.emit, 8, [], 0xD33B, 0) := by decide +kernel

theorem test_v2FrameUnsigned : seen (exec (.v2FrameUnsigned r3) State.reset) = some (.emit, 14, [], 0x89E4, 0) := by
  decide +kernel

theorem test_v2FrameSigned : seen (exec (.v2FrameSigned r4) State.reset) = some (.emit, 28, [], 0xC9D4, 0) := by
  decide +kernel

/-- R210: the reset input with a frame held. -/
theorem test_reset_input : seen (step { pushed f1 with port := [.reset] }) = some (.seeking, 0, [], 0xFFFF, 0) := by
  decide +kernel

/-! ### Views -/

/-- P2, after command 28. -/
theorem test_views_signed :
    View.read .outMsgid (pushed f4) = .value 300 ∧ View.read .outChecksum (pushed f4) = .value 0x9928 ∧
      View.read .outLinkId (pushed f4) = .value 5 ∧ View.read .outTimestamp (pushed f4) = .value 0x0123456789AB ∧
      View.read (.outSig 0) (pushed f4) = .value 0xAA ∧ View.read (.outSig 5) (pushed f4) = .value 0xFF ∧
      View.read .outTotalLen (pushed f4) = .value 28 := by decide +kernel

/-- V-HDR-19: the payload reads zero beyond its length. -/
theorem test_views_payload :
    View.read (.payload 1) (pushed f3) = .value 2 ∧ View.read (.payload 2) (pushed f3) = .value 0 ∧
      View.read (.payload 254) (pushed f3) = .value 0 ∧
      View.read (.payload 255) (pushed f3) = .refused .payloadIndexNamesNoView := by decide +kernel

/-- V-HDR-11, V-VAL-8: the advisory view. -/
theorem test_views_advisory :
    View.read .outAdvUnknownIncompat (pushed f7) = .value 1 ∧ View.read .outIncompat (pushed f7) = .value 2 ∧
      View.read .outSigned (pushed f7) = .value 0 := by decide +kernel

/-- R46: reads outside a domain. -/
theorem test_views_outside :
    View.read .outLen State.reset = .fault .frameViewOutsideEmit ∧
      View.read .outLinkId (pushed f3) = .fault .trailerViewUnsigned ∧
      View.read (.rawOut 14) (pushed f3) = .fault .rawOutBeyondFrame ∧
      View.read (.rawOut 13) (pushed f3) = .value 0x7D := by decide +kernel

/-! ### The host syntax -/

/-- R82, R83. -/
theorem test_assemble :
    assemble ["PUSHS 0xFE, 0x09 ; noise", "", "VALIDATE 0x32", "ACCEPT"] =
      some [.push 0xFE, .push 0x09, .validate 0x32, .accept 0] := by decide +kernel

theorem test_assemble_refuses : assembleLine "PUSH 256" = none ∧ assembleLine "PUSH" = none ∧ assembleLine "NOP 1" = none := by
  decide +kernel

/-! ### Witnesses: states and operands that meet the hypotheses of the statements -/

theorem codesLegal_of_codeFault {s : State} (h : s.codeFault = none) : s.codesLegal := h

/-- A held frame meets the invariant where the fields agree: the conditions a closed state is checked for. -/
theorem inv_of_held {s : State} (h1 : s.rxState = .emit) (h2 : s.n = s.total) (h3 : s.n + s.pq.length ≤ 280)
    (h4 : s.crcRun = crcCompute (s.raw.slice 1 s.crcReach)) (h5 : s.raw.read 0 = s.ver.magic)
    (h6 : s.status = 0 ∨ s.status = 1 ∨ s.status = 3 ∨ s.status = 9 ∨ s.status = 10) (h7 : s.raw.wf = true) : s.Inv where
  countAgrees := by simp only [State.countAgrees, h1, h2]
  queueEmptyOutsideEmit := fun h => absurd h1 h
  storageBounded := h3
  crcAgrees := by simp only [State.crcAgrees, h1, reduceCtorEq, if_false, h4]
  magicHeld := fun _ => h5
  statusProduced := h6
  rawWf := h7

theorem inv_withPort {s : State} (h : s.Inv) (p : List HostEvent) : ({ s with port := p } : State).Inv :=
  ⟨h.countAgrees, h.queueEmptyOutsideEmit, h.storageBounded, h.crcAgrees, h.magicHeld, h.statusProduced, h.rawWf⟩

theorem inv_f4 : (pushed f4).Inv :=
  inv_of_held (by decide +kernel) (by decide +kernel) (by decide +kernel) (by decide +kernel) (by decide +kernel)
    (by decide +kernel) (by decide +kernel)

theorem inv_f6 : (pushed f6).Inv :=
  inv_of_held (by decide +kernel) (by decide +kernel) (by decide +kernel) (by decide +kernel) (by decide +kernel)
    (by decide +kernel) (by decide +kernel)

/-- F6 held with 14 bytes queued behind it (P3 after command 30). -/
def f6Queued : State := (pushed (p3Before ++ f6 ++ p3After)).reject

theorem inv_f6Queued : f6Queued.Inv :=
  inv_of_held (by decide +kernel) (by decide +kernel) (by decide +kernel) (by decide +kernel) (by decide +kernel)
    (by decide +kernel) (by decide +kernel)

theorem next_nop (a : Byte) : exec (.nop a) (pushed f6) = .next (pushed f6) := guarded_of_codesLegal inv_f6.codesLegal _

theorem next_push (b : Byte) {s : State} (h : s.codesLegal) : exec (.push b) s = .next (s.push b) := guarded_of_codesLegal h _

theorem next_accept (a : Byte) {s : State} (h : s.codesLegal) : exec (.accept a) s = .next s.accept := guarded_of_codesLegal h _

theorem next_reject (a : Byte) {s : State} (h : s.codesLegal) : exec (.reject a) s = .next s.reject := guarded_of_codesLegal h _

/-- A state with a byte changed beyond its count differs only in what no rule reads. -/
theorem sameObservable_write {s : State} {i : Nat} (b : Byte) (h : s.n ≤ i) :
    s.SameObservable { s with raw := s.raw.write i b } :=
  ⟨rfl, fun _ => rfl, rfl, fun _ hj => (Memory.read_write_of_ne _ b (by omega)).symm, rfl, rfl, rfl, rfl⟩

/-- The step of one pending unit. -/
theorem step_unit {s : State} {u : PortUnit} {i : Instr} (hp : s.port = []) (hu : decode u = .ok i) :
    step { s with port := [.issue u] } = exec i s := by
  cases s
  simp only at hp
  subst hp
  simp [step, runEvent, runUnit, hu]

/-- A unit the host hands over leads from a reachable state to a reachable state. -/
theorem reachable_unit {s t : State} {u : PortUnit} {i : Instr} (hs : Reachable s) (hu : decode u = .ok i)
    (hp : s.port = []) (h : exec i s = .next t) : Reachable t :=
  .step _ _ (.host s [.issue u] hs) ((step_unit hp hu).trans h)

/-- The states a PUSHS leads to from reset are reachable. -/
theorem reachable_pushed {f : List Byte}
    (hd : decode (.commands (f.map (commandWord 0x01))) = .ok (.pushs f)) : Reachable (pushed f) :=
  reachable_unit .reset hd rfl rfl

theorem reachable_f4 : Reachable (pushed f4) := reachable_pushed (by decide +kernel)

theorem reachable_f6 : Reachable (pushed f6) := reachable_pushed (by decide +kernel)

theorem reachable_f6Queued : Reachable f6Queued :=
  reachable_unit (u := .command 0x0004) (i := .reject 0)
    (reachable_pushed (f := p3Before ++ f6 ++ p3After) (by decide +kernel)) (by decide) (by decide +kernel)
    (next_reject 0 (codesLegal_of_codeFault (by decide +kernel)))

/-! #### Encoding -/

/-- Well-formed instructions at the ends of their operands' ranges. -/
theorem witness_DecodeOfEncodeIsTheInstruction :
    (Instr.reserved 0x06 0xFF).wellFormed = true ∧ (Instr.reserved 0xFF 0x00).wellFormed = true ∧
      (Instr.pushs [0x00]).wellFormed = true ∧ (Instr.noise 0xFC).wellFormed = true ∧
      (Instr.v1Frame { r1 with msgid := 255 }).wellFormed = true ∧ (Instr.v2FrameUnsigned r3).wellFormed = true ∧
      (Instr.v2FrameSigned r4).wellFormed = true := by decide +kernel

theorem witness_EncodeOfDecodeIsTheUnit :
    decode (.command 0xFFFF) = .ok (.reserved 0xFF 0xFF) ∧ decode (.commands [0x0001]) = .ok (.pushs [0x00]) ∧
      decode (.wireByte 0xFD) = .ok .sofV2 ∧ decode (.wireFrame f4) = .ok (.v2FrameSigned r4) := by decide +kernel

/-- One word for each clause, the last clause at both ends of its range. -/
theorem witness_CommandWordDecodesByItsOpcode :
    (0xFF00 : Word).extractLsb' 0 8 = 0x00 ∧ (0xFF01 : Word).extractLsb' 0 8 = 0x01 ∧ (0xFF02 : Word).extractLsb' 0 8 = 0x02 ∧
      (0xFF03 : Word).extractLsb' 0 8 = 0x03 ∧ (0xFF04 : Word).extractLsb' 0 8 = 0x04 ∧
      (0xFF05 : Word).extractLsb' 0 8 = 0x05 ∧ 6 ≤ ((0x0006 : Word).extractLsb' 0 8).toNat ∧
      6 ≤ ((0x00FF : Word).extractLsb' 0 8).toNat := by decide

/-! #### The step -/

theorem witness_StepRunsTheDecodedInstruction :
    (State.reset.withFetchWord 16 0xFE01).port = .issue (.command 0xFE01) :: [] ∧
      decode (.command 0xFE01) = .ok (.push 0xFE) ∧
      ({ State.reset with port := [.issue (.commands [])] } : State).port = .issue (.commands []) :: [] ∧
      decode (.commands []) = .error .notPushSequence := by decide

/-- Nothing pending; a read with a value, one that faults, one that is refused. -/
theorem witness_StepWithoutACommandChangesNoState :
    (pushed f6).port = [] ∧ View.read .outLen { pushed f6 with port := [] } = .value 0 ∧
      View.read .outLinkId { pushed f6 with port := [] } = .fault .trailerViewUnsigned ∧
      View.read (.payload 255) { pushed f6 with port := [] } = .refused .payloadIndexNamesNoView ∧
      ({ pushed f6 with port := [.read .outLen] } : State).port = .read .outLen :: [] := by decide +kernel

/-- rx_state 6 and 7, where the status is legal and where it is not; both ends of each range of status codes; an instruction that is
not ABORT. -/
theorem witness_UnusedCodesStopEveryInstructionButAbort :
    ({ State.reset with rxState := .unused6 } : State).rxState = .unused6 ∧
      ({ State.reset with rxState := .unused7, status := 15 } : State).rxState = .unused7 ∧
      (State.reset.rxState ≠ .unused6 ∧ State.reset.rxState ≠ .unused7) ∧
      (4 ≤ (4 : BitVec 4).toNat ∧ (7 : BitVec 4).toNat ≤ 7) ∧ 11 ≤ (11 : BitVec 4).toNat ∧ 11 ≤ (15 : BitVec 4).toNat ∧
      (3 : BitVec 4).toNat ≤ 3 ∧ 8 ≤ (8 : BitVec 4).toNat ∧ (10 : BitVec 4).toNat ≤ 10 ∧
      ∀ a, Instr.nop 0 ≠ .abort a := by decide

/-! #### Commands -/

/-- A view whose read at reset is a fault. -/
theorem witness_ResetStateHasTheSpecValues : View.alwaysDefined (.payload 254) = false ∧ View.named (.payload 254) = true := by
  decide

theorem witness_NopChangesNothing : (pushed f6).codesLegal := codesLegal_of_codeFault (by decide +kernel)

theorem witness_ReservedOpcodeOnlyReports : (pushed f6).codesLegal ∧ 6 ≤ (0x06 : Byte).toNat ∧ 6 ≤ (0xFF : Byte).toNat :=
  ⟨inv_f6.codesLegal, by decide, by decide⟩

/-- No frame held; a frame held that passes; a frame held that fails. -/
theorem witness_ValidateComparesTheRunningCrc :
    State.reset.codesLegal ∧ (pushed f6).codesLegal ∧ State.reset.rxState ≠ .emit ∧ (pushed f6).rxState = .emit ∧
      crcAccumulate (pushed f6).crcRun 0x10 ^^^ (0x0000 : Word) = 0x9F02 ∧
      crcAccumulate (pushed f6).crcRun 0x11 ^^^ (0x0000 : Word) ≠ 0x9F02 ∧
      (pushed f6).raw.read ((pushed f6).hdrLen + (pushed f6).len) = 0x02 ∧
      (pushed f6).raw.read ((pushed f6).hdrLen + (pushed f6).len + 1) = 0x9F :=
  ⟨codesLegal_of_codeFault rfl, inv_f6.codesLegal, by decide +kernel, by decide +kernel, by decide +kernel, by decide +kernel,
    by decide +kernel, by decide +kernel⟩

theorem witness_ValidateAgreesWithRecomputation : (pushed f4).Inv ∧ (pushed f4).rxState = .emit :=
  ⟨inv_f4, by decide +kernel⟩

theorem witness_PushConsumesUnlessAFrameIsHeld :
    State.reset.codesLegal ∧ State.reset.rxState ≠ .emit ∧ (pushed f6).codesLegal ∧ (pushed f6).rxState = .emit :=
  ⟨codesLegal_of_codeFault rfl, by decide, inv_f6.codesLegal, by decide +kernel⟩

theorem witness_SeekingOpensACandidateOnAMagicByte :
    State.reset.codesLegal ∧ State.reset.rxState = .seeking ∧ (0xFC : Byte) ≠ 0xFE ∧ (0xFC : Byte) ≠ 0xFD ∧
      (0xFF : Byte) ≠ 0xFE ∧ (0xFF : Byte) ≠ 0xFD :=
  ⟨codesLegal_of_codeFault rfl, rfl, by decide, by decide, by decide, by decide⟩

/-- A state in each of the four candidate states, the last one with the highest count. -/
theorem witness_CandidateByteIsStoredAndCounted :
    (pushed (f5.take 9)).codesLegal ∧ (pushed (f5.take 9)).n < 280 ∧ (pushed (f5.take 9)).rxState = .header ∧
      (pushed p3Before).codesLegal ∧ (pushed p3Before).n < 280 ∧ (pushed p3Before).rxState = .payload ∧
      (pushed (f4.take 14)).codesLegal ∧ (pushed (f4.take 14)).n < 280 ∧ (pushed (f4.take 14)).rxState = .checksum ∧
      ({ State.reset with rxState := .signature, n := 279 } : State).codesLegal :=
  ⟨codesLegal_of_codeFault (by decide +kernel), by decide +kernel, by decide +kernel,
    codesLegal_of_codeFault (by decide +kernel), by decide +kernel, by decide +kernel,
    codesLegal_of_codeFault (by decide +kernel), by decide +kernel, by decide +kernel, codesLegal_of_codeFault rfl⟩

theorem witness_PushNeverReportsCorruption : State.reset.codesLegal ∧ State.reset.rxState ≠ .emit :=
  ⟨codesLegal_of_codeFault rfl, by decide⟩

/-- The last byte of F4; ACCEPT and REJECT of a held F6 and ABORT of a candidate, which lead back to SEEKING. -/
theorem witness_PushFollowsTheChainOfStates :
    (exec (.push 0xFF) (pushed (f4.take 27)) = .next ((pushed (f4.take 27)).push 0xFF) ∧
        ((pushed (f4.take 27)).push 0xFF).rxState = .emit) ∧
      (exec (.accept 0) (pushed f6) = .next (pushed f6).accept ∧ (pushed f6).rxState ≠ .seeking ∧
        (pushed f6).accept.rxState = .seeking) ∧
      (exec (.reject 0) (pushed f6) = .next (pushed f6).reject ∧ (pushed f6).reject.rxState = .seeking) ∧
      (exec (.abort 0) (pushed p3Before) = .next (pushed p3Before).resetBlock ∧ (pushed p3Before).rxState ≠ .seeking ∧
        (pushed p3Before).resetBlock.rxState = .seeking) :=
  ⟨⟨next_push 0xFF (codesLegal_of_codeFault (by decide +kernel)), by decide +kernel⟩,
    ⟨next_accept 0 inv_f6.codesLegal, by decide +kernel, by decide +kernel⟩,
    ⟨next_reject 0 inv_f6.codesLegal, by decide +kernel⟩, ⟨rfl, by decide +kernel, rfl⟩⟩

/-- Two V2 candidates that differ in the bytes that do not steer; two at the length byte; two at the flags byte. -/
theorem witness_OnlyMagicLengthAndSignedBitSteer :
    (pushed [0xFD, 0x03, 0x01, 0x05]).raw.wf = true ∧ (pushed [0xFD, 0x03, 0x03, 0x09]).raw.wf = true ∧
      (pushed [0xFD, 0x03, 0x01, 0x05]).SameSteering (pushed [0xFD, 0x03, 0x03, 0x09]) ∧
      (pushed [0xFD]).SameSteering (pushed [0xFD]) ∧ (pushed [0xFD]).n = 1 ∧
      (pushed [0xFD, 0x03]).SameSteering (pushed [0xFD, 0x03]) ∧ (pushed [0xFD, 0x03]).n = 2 ∧
      (0x01 : Byte).getLsbD 0 = (0xFF : Byte).getLsbD 0 ∧ (∀ b s, State.codesLegal s → exec (.push b) s = .next (s.push b)) := by
  refine ⟨by decide +kernel, by decide +kernel, ?_, ?_, by decide +kernel, ?_, by decide +kernel, by decide,
    fun _ _ h => guarded_of_codesLegal h _⟩
  · exact ⟨by decide +kernel, by decide +kernel, by decide +kernel, by decide +kernel, by decide +kernel⟩
  · exact ⟨rfl, rfl, rfl, fun _ => rfl, fun _ => rfl⟩
  · exact ⟨rfl, rfl, rfl, fun _ => rfl, fun _ => rfl⟩

theorem witness_AcceptReleasesTheFrameAndDrains :
    State.reset.codesLegal ∧ State.reset.rxState ≠ .emit ∧ f6Queued.codesLegal ∧ f6Queued.rxState = .emit ∧
      f6Queued.pq.length = 14 :=
  ⟨codesLegal_of_codeFault rfl, by decide, inv_f6Queued.codesLegal, by decide +kernel, by decide +kernel⟩

theorem witness_RejectReplaysAllButTheMagic :
    State.reset.codesLegal ∧ State.reset.rxState ≠ .emit ∧ f6Queued.codesLegal ∧ f6Queued.rxState = .emit ∧
      (f6Queued.held.drop 1).length = 7 :=
  ⟨codesLegal_of_codeFault rfl, by decide, inv_f6Queued.codesLegal, by decide +kernel, by decide +kernel⟩

theorem witness_AfterAcceptNothingCanBeRejected :
    (pushed f6).codesLegal ∧ (pushed f6).rxState = .emit ∧ (pushed f6).pq = [] :=
  ⟨inv_f6.codesLegal, by decide +kernel, by decide +kernel⟩

/-! #### Sequences and frames -/

theorem witness_PushsIsThePushOfEachByte : State.reset.codesLegal := codesLegal_of_codeFault rfl

/-- The reset state, and a well-formed frame of each of the three formats. -/
theorem witness_OfferedFrameIsHeld :
    State.reset.codesLegal ∧ State.reset.rxState = .seeking ∧ State.reset.pq = [] ∧ State.reset.raw.wf = true ∧
      (Instr.v1Frame r1).wellFormed = true ∧ (Instr.v2FrameUnsigned r3).wellFormed = true ∧
      (Instr.v2FrameSigned r4).wellFormed = true :=
  ⟨codesLegal_of_codeFault rfl, rfl, rfl, rfl, by decide +kernel, by decide +kernel, by decide +kernel⟩

/-- The reset state; prefixes of F4 of 1 and of 27 bytes, and the whole of it. -/
theorem witness_StreamAndBufferAgree :
    (State.reset.codesLegal ∧ State.reset.rxState = .seeking ∧ State.reset.pq = [] ∧ State.reset.raw.wf = true) ∧
      (f4.head? = some 0xFD ∧ (f4.take 1).head? = some 0xFD ∧ frameDecode (f4.take 1) = .error .incomplete ∧
        frameDecode (f4.take 27) = .error .incomplete ∧ frameDecode f4 = .ok (r4, f4.length) ∧
        frameDecode (f4 ++ [0x00]) = .ok (r4, 28) ∧ 0 < 27 ∧ 27 < 28) :=
  ⟨⟨codesLegal_of_codeFault rfl, rfl, rfl, rfl⟩, by decide +kernel⟩

/-- NOP, VALIDATE, a reserved opcode, PUSH and the one-byte wire units with a frame held; ACCEPT and REJECT at reset. -/
theorem witness_ReportingCommandsChangeOnlyStatus :
    exec (.nop 0) (pushed f6) = .next (pushed f6) ∧
      exec (.validate 0x11) (pushed f6) = .next ((pushed f6).validate Config.crcXorOut 0x11) ∧
      exec (.reserved 0x06 0) (pushed f6) = .next ((pushed f6).report .illegalCommand) ∧
      (exec (.push 0x42) (pushed f6) = .next ((pushed f6).push 0x42) ∧ (pushed f6).rxState = .emit) ∧
      exec .sofV1 (pushed f6) = .next ((pushed f6).push 0xFE) ∧ exec .sofV2 (pushed f6) = .next ((pushed f6).push 0xFD) ∧
      exec (.noise 0x55) (pushed f6) = .next ((pushed f6).push 0x55) ∧
      (exec (.accept 0) State.reset = .next State.reset.accept ∧ State.reset.rxState ≠ .emit) ∧
      exec (.reject 0) State.reset = .next State.reset.reject :=
  have h := inv_f6.codesLegal
  ⟨next_nop 0, guarded_of_codesLegal h _, guarded_of_codesLegal h _, ⟨next_push 0x42 h, by decide +kernel⟩,
    guarded_of_codesLegal h _, guarded_of_codesLegal h _, guarded_of_codesLegal h _,
    ⟨next_accept 0 (codesLegal_of_codeFault rfl), by decide⟩, next_reject 0 (codesLegal_of_codeFault rfl)⟩

/-- A magic byte and a noise byte at reset, a byte inside a candidate, a byte in the CHECKSUM state, a byte with a frame held. -/
theorem witness_PushStoresOneByteAndLeavesTheRest :
    (exec (.push 0xFD) State.reset = .next (State.reset.push 0xFD) ∧ versionOf 0xFD ≠ none) ∧
      (exec (.push 0x55) State.reset = .next (State.reset.push 0x55) ∧ versionOf 0x55 = none) ∧
      (exec (.push 0xFE) (pushed p3Before) = .next ((pushed p3Before).push 0xFE) ∧ (pushed p3Before).rxState = .payload) ∧
      (pushed (f4.take 14)).rxState = .checksum ∧ (pushed f6).rxState = .emit :=
  ⟨⟨next_push _ (codesLegal_of_codeFault rfl), by decide⟩, ⟨next_push _ (codesLegal_of_codeFault rfl), by decide⟩,
    ⟨next_push _ (codesLegal_of_codeFault (by decide +kernel)), by decide +kernel⟩, by decide +kernel, by decide +kernel⟩

/-- A PUSHS at reset, and one while a frame is held. -/
theorem witness_PushedSequenceStoresOnlyAtItsIndexes :
    exec (.pushs f6) State.reset = .next (pushed f6) ∧
      exec (.pushs f6) (pushed f6) = .next ((pushed f6).pushAll f6) ∧ (pushed f6).rxState = .emit :=
  ⟨rfl, guarded_of_codesLegal inv_f6.codesLegal _, by decide +kernel⟩

theorem witness_DrainStoresOnlyWhatItScans :
    f6Queued.rxState = .emit ∧ exec (.accept 0) f6Queued = .next f6Queued.accept ∧
      exec (.reject 0) f6Queued = .next f6Queued.reject :=
  ⟨by decide +kernel, next_accept 0 inv_f6Queued.codesLegal, next_reject 0 inv_f6Queued.codesLegal⟩

/-- Each of the three error statuses. -/
theorem witness_ErrorStatusLeavesTheFramingState :
    (decode (.command 0x1102) = .ok (.validate 0x11) ∧
        exec (.validate 0x11) (pushed f6) = .next ((pushed f6).validate Config.crcXorOut 0x11) ∧
        ((pushed f6).validate Config.crcXorOut 0x11).status = 3) ∧
      (decode (.command 0x4201) = .ok (.push 0x42) ∧ exec (.push 0x42) (pushed f6) = .next ((pushed f6).push 0x42) ∧
        ((pushed f6).push 0x42).status = 9) ∧
      (decode (.command 0x0006) = .ok (.reserved 0x06 0x00) ∧
        exec (.reserved 0x06 0x00) (pushed f6) = .next ((pushed f6).report .illegalCommand) ∧
        ((pushed f6).report .illegalCommand).status = 10) :=
  ⟨⟨by decide, guarded_of_codesLegal inv_f6.codesLegal _, by decide +kernel⟩,
    ⟨by decide, next_push 0x42 inv_f6.codesLegal, by decide +kernel⟩,
    ⟨by decide, guarded_of_codesLegal inv_f6.codesLegal _, by decide⟩⟩

/-! #### Invariants -/

theorem witness_StepKeepsTheInvariant :
    ({ f6Queued with port := [.issue (.command 0x0003)] } : State).Inv ∧
      step { f6Queued with port := [.issue (.command 0x0003)] } = .next f6Queued.accept :=
  ⟨inv_withPort inv_f6Queued _, (step_unit (by decide +kernel) (by decide)).trans (next_accept 0 inv_f6Queued.codesLegal)⟩

theorem witness_ReachableStateAndCountAgree : Reachable (pushed f4) := reachable_f4

theorem witness_ReachableQueueIsEmptyOutsideEmit : Reachable State.reset ∧ State.reset.rxState ≠ .emit := ⟨.reset, by decide⟩

theorem witness_ReachableStorageIsBounded : Reachable f6Queued ∧ f6Queued.pq ≠ [] := ⟨reachable_f6Queued, by decide +kernel⟩

theorem witness_ReachableCrcAgrees :
    (Reachable State.reset ∧ State.reset.rxState = .seeking) ∧ Reachable (pushed f4) ∧ (pushed f4).rxState ≠ .seeking :=
  ⟨⟨.reset, rfl⟩, reachable_f4, by decide +kernel⟩

theorem witness_ReachableStatusIsAProducedCode : Reachable f6Queued := reachable_f6Queued

theorem witness_ReachableBlockAlwaysTakesTheNextCommand : Reachable f6Queued := reachable_f6Queued

theorem witness_V1IsNeverSigned : Reachable (pushed f6) ∧ (pushed f6).ver = .v1 ∧ (pushed f6).rxState = .emit :=
  ⟨reachable_f6, by decide +kernel, by decide +kernel⟩

/-- F6 held, and F6 held with another byte beyond it in RAW. -/
theorem witness_StaleStorageIsUnobservable :
    (pushed f6).Inv ∧ ({ pushed f6 with raw := (pushed f6).raw.write 100 0x55 } : State).Inv ∧
      (pushed f6).SameObservable { pushed f6 with raw := (pushed f6).raw.write 100 0x55 } ∧
      pushed f6 ≠ { pushed f6 with raw := (pushed f6).raw.write 100 0x55 } := by
  refine ⟨inv_f6, ?_, sameObservable_write 0x55 (by decide +kernel), by decide +kernel⟩
  exact inv_of_held (by decide +kernel) (by decide +kernel) (by decide +kernel) (by decide +kernel) (by decide +kernel)
    (by decide +kernel) (by decide +kernel)

/-! #### Views -/

/-- A frame view outside EMIT; a trailer view of an unsigned frame; RAWOUT at the frame's length; PAYLOAD at 255. -/
theorem witness_ReadsOutsideAViewsDomainStop :
    (View.alwaysDefined (.rawOut 0) = false ∧ View.named (.rawOut 0) = true ∧ State.reset.rxState ≠ .emit) ∧
      (View.ofTrailer .outLinkId = true ∧ (pushed f6).rxState = .emit ∧ (pushed f6).signed = false) ∧
      (pushed f6).total ≤ 8 ∧ 255 ≤ 255 := by decide +kernel

/-- A held frame of each version; the indexes at the ends of the payload and of the frame. -/
theorem witness_FrameViewsReadTheRawBytes :
    (pushed f1).rxState = .emit ∧ (pushed f1).ver = .v1 ∧ (pushed f4).rxState = .emit ∧ (pushed f4).ver = .v2 ∧
      2 < (pushed f4).len ∧ ¬ 3 < (pushed f4).len ∧ 27 < (pushed f4).total ∧ ¬ 28 < (pushed f4).total ∧ 254 < 255 := by
  decide +kernel

theorem witness_TrailerViewsReadTheRawBytes :
    (pushed f4).rxState = .emit ∧ (pushed f4).signed = true ∧ (pushed f6).rxState = .emit ∧ (pushed f6).signed = false := by
  decide +kernel

theorem witness_SignedRangeIsTheFrameButItsSignature :
    (pushed f4).Inv ∧ (pushed f4).rxState = .emit ∧ (pushed f4).signed = true :=
  ⟨inv_f4, by decide +kernel, by decide +kernel⟩

/-! #### Checksum Engine and Header Codec -/

/-- F6 with bit 7 of its last checksum byte flipped. -/
def f6Flipped : List Byte := [0xFE, 0x00, 0xFF, 0x09, 0x08, 0x07, 0x02, 0x1F]

/-- A body and a bit of it; F6 held and passing, and F6 held with one bit of its checksum flipped. -/
theorem witness_SingleBitErrorIsDetected :
    (0 < [(0x00 : Byte)].length ∧ 7 < 8) ∧
      ((pushed f6).Inv ∧ (pushed f6Flipped).Inv) ∧
      (pushed f6).rxState = .emit ∧ (pushed f6Flipped).rxState = .emit ∧ (pushed f6).ver = (pushed f6Flipped).ver ∧
      2 ≤ 7 ∧ 7 < (pushed f6).hdrLen + (pushed f6).len + 2 ∧
      (pushed f6Flipped).raw.read 7 = (pushed f6).raw.read 7 ^^^ ((1 : Byte) <<< 7) ∧
      (∀ k, k < (pushed f6).hdrLen + (pushed f6).len + 2 → k ≠ 7 →
        (pushed f6Flipped).raw.read k = (pushed f6).raw.read k) ∧
      exec (.validate 0x10) (pushed f6) = .next ((pushed f6).validate Config.crcXorOut 0x10) ∧
      ((pushed f6).validate Config.crcXorOut 0x10).status = 0 :=
  ⟨by decide, ⟨inv_f6, inv_of_held (by decide +kernel) (by decide +kernel) (by decide +kernel) (by decide +kernel)
      (by decide +kernel) (by decide +kernel) (by decide +kernel)⟩, by decide +kernel, by decide +kernel, by decide +kernel,
    by decide, by decide +kernel, by decide +kernel, by decide +kernel, guarded_of_codesLegal inv_f6.codesLegal _,
    by decide +kernel⟩

/-- Bytes that are no magic, and the longest headers that are short. -/
theorem witness_HeaderDecodeResults :
    (0xFC : Byte) ≠ 0xFE ∧ (0xFC : Byte) ≠ 0xFD ∧ ([0x00, 0x00, 0x00, 0x00] : List Byte).length < 5 ∧
      ([0x00, 0x00, 0x00, 0x00, 0x00, 0x00, 0x00, 0x00] : List Byte).length < 9 := by decide

theorem witness_FrameDecodeResults :
    r4.wellFormed = true ∧ 0 < r4.wireBytes.length ∧ 27 < r4.wireBytes.length ∧ (0xFF : Byte) ≠ 0xFE ∧ (0xFF : Byte) ≠ 0xFD := by
  decide +kernel

/-- A V1 record with each of the four faults; a payload of 256 bytes in a V1 record asked to trim and in a V2 record that does not
trim or trims to no less; a well-formed record. -/
theorem witness_FrameEncodeRefusesWhatItCannotEncode :
    r1.version = .v1 ∧ ({ r1 with sig := r4.sig } : FrameRecord).sig.isSome = true ∧
      255 < ({ r1 with msgid := 256 } : FrameRecord).msgid.toNat ∧ ({ r1 with incompat := 1 } : FrameRecord).incompat ≠ 0 ∧
      ({ r1 with compat := 1 } : FrameRecord).compat ≠ 0 ∧
      255 < (transmittedPayload { r1 with payload := List.replicate 256 0 } true).length ∧
      255 < (transmittedPayload { r3 with payload := List.replicate 256 0 } false).length ∧
      255 < (transmittedPayload { r3 with payload := List.replicate 256 1 } true).length ∧ r1.wellFormed = true := by
  decide +kernel

/-- The record of F3 before trimming, with the checksum of the trimmed frame, trimmed; F4 as it is. -/
theorem witness_FrameRoundTrip :
    (r3u.wellFormed = true ∧ frameEncode r3u 0x7A true = some f3 ∧
        r3u.checksum = le16 (byteAt f3 (r3u.version.hdrLen + (transmittedPayload r3u true).length))
          (byteAt f3 (r3u.version.hdrLen + (transmittedPayload r3u true).length + 1))) ∧
      (r4.wellFormed = true ∧ frameEncode r4 0x99 false = some f4 ∧
        r4.checksum = le16 (byteAt f4 (r4.version.hdrLen + (transmittedPayload r4 false).length))
          (byteAt f4 (r4.version.hdrLen + (transmittedPayload r4 false).length + 1))) := by decide +kernel

/-! #### Whole streams -/

theorem witness_AcceptingHostGetsExactlyTheTwoFrames :
    noMagic [0x00, 0x55, 0xFF] ∧ isFrame f1 ∧ noMagic [] ∧ isFrame f4 := by
  refine ⟨by unfold noMagic; decide, ⟨r1, by decide +kernel⟩, by unfold noMagic; decide, ⟨r4, by decide +kernel⟩⟩

/-- The stream of program P3, with F6 as the genuine frame. -/
theorem witness_RejectingHostRecoversTheGenuineFrame :
    isFrame f6 ∧ frameSays (fun _ => 0x10) f6 = true ∧
      ∀ j, j < p3Before.length → versionOf (byteAt p3Before j) ≠ none →
        ∃ r consumed, frameDecode ((p3Before ++ f6 ++ p3After).drop j) = .ok (r, consumed) ∧
          (frameSays (fun _ => 0x10) (slice (p3Before ++ f6 ++ p3After) j (j + consumed)) = true →
            j + consumed ≤ p3Before.length) := by
  refine ⟨⟨{ r1 with len := 0, seq := 255, sys := 9, comp := 8, msgid := 7, payload := [], checksum := 0x9F02 },
    by decide +kernel⟩, by decide +kernel, ?_⟩
  intro j hj hm
  have h0 : j = 0 := by
    have : ∀ i : Fin 6, versionOf (byteAt p3Before i.val) ≠ none → i.val = 0 := by decide
    exact this ⟨j, hj⟩ hm
  subst h0
  exact ⟨_, 28, rfl, by decide +kernel⟩

end Sys2Proof.Tests
end

section
/-! PROOFS. The family 00_scope: what a step does with a unit of the port (R3, R58), and the two values of CRC_XOROUT (R8). -/

namespace Sys2Proof.Machine

/-! ### A step with a unit at the head of the port -/

/-- A unit that decodes runs as its instruction. -/
theorem runUnit_of_decode_ok {u : PortUnit} {i : Instr} (h : decode u = .ok i) (s : State) : runUnit u s = exec i s := by
  simp only [runUnit, h]

/-- A unit that does not decode is refused with the decoder's reason, in every state. -/
theorem runUnit_of_decode_error {u : PortUnit} {e : DecodeReject} (h : decode u = .error e) (s : State) :
    runUnit u s = .refused (.unitRejected e) := by
  simp only [runUnit, h]

/-- A step takes the host's next act from the port and performs it on what remains (R3, R58). -/
theorem step_of_port_cons {s : State} {e : HostEvent} {rest : List HostEvent} (h : s.port = e :: rest) :
    step s = runEvent e { s with port := rest } := by
  simp only [step, h]

/-- A step with a unit at the head of the port is that unit's run. -/
theorem step_of_port_issue {s : State} {u : PortUnit} {rest : List HostEvent} (h : s.port = .issue u :: rest) :
    step s = runUnit u { s with port := rest } :=
  step_of_port_cons h

/-! ### The checksum at the two values of CRC_XOROUT -/

/-- `CRC_XOROUT` = 0x0000 leaves the CRC as it stands after `crc_extra` (R103). -/
theorem checksumWith_zero (body : List Byte) (x : Byte) :
    checksumWith 0x0000 body x = crcAccumulate (crcCompute body) x :=
  BitVec.xor_zero

/-- `CRC_XOROUT` = 0xFFFF complements the CRC that stands after `crc_extra` (R103). -/
theorem checksumWith_ones (body : List Byte) (x : Byte) :
    checksumWith 0xFFFF body x = ~~~ crcAccumulate (crcCompute body) x :=
  BitVec.xor_allOnes

end Sys2Proof.Machine

namespace Sys2Proof.Proofs

open Sys2Proof.Machine

/-- Settles O6: the unit leaves the port, and the decoder's answer says whether it runs or is refused. -/
theorem stepRunsTheDecodedInstruction : Obligations.StepRunsTheDecodedInstruction := by
  intro s u rest hport
  have hstep : step s = runUnit u { s with port := rest } := step_of_port_issue hport
  constructor
  · intro i hdecode
    exact hstep.trans (runUnit_of_decode_ok hdecode _)
  · intro e hdecode
    exact hstep.trans (runUnit_of_decode_error hdecode _)

/-- Settles O51: XOR with 0xFFFF is the complement, XOR with the model's 0x0000 changes nothing. -/
theorem checksumAlternativesAreComplements : Obligations.ChecksumAlternativesAreComplements := by
  intro body x
  constructor
  · rw [checksumWith_ones, checksumWith_zero]
  · exact checksumWith_zero body x

end Sys2Proof.Proofs
end

section
/-! PROOFS. The family 10_state: the invariant of the block and its reachable states (R24, R29 to R32, R190). -/

namespace Sys2Proof.Machine

/-! ### What an instruction does -/

/-- The state changes an instruction other than ABORT can make: nothing, ILLEGAL_COMMAND reported, bytes pushed one by one, a verdict
reported, a frame released or replayed. -/
inductive CommandEffect : (State → State) → Prop where
  | keep : CommandEffect fun s => s
  | illegal : CommandEffect fun s => s.report .illegalCommand
  | pushAll (bs : List Byte) : CommandEffect fun s => s.pushAll bs
  | validate (crcExtra : Byte) : CommandEffect fun s => s.validate Config.crcXorOut crcExtra
  | accept : CommandEffect State.accept
  | reject : CommandEffect State.reject

/-- Everything `exec` can do: ABORT resets the block in every state; any other instruction makes one fixed change, guarded by the codes
of the state it meets. -/
theorem exec_shape (i : Instr) :
    (∀ s, exec i s = .next s.resetBlock) ∨ ∃ f, CommandEffect f ∧ ∀ s, exec i s = guarded s (f s) := by
  cases i with
  | nop _ => exact .inr ⟨_, .keep, fun _ => rfl⟩
  | push b => exact .inr ⟨_, .pushAll [b], fun _ => rfl⟩
  | validate x => exact .inr ⟨_, .validate x, fun _ => rfl⟩
  | accept _ => exact .inr ⟨_, .accept, fun _ => rfl⟩
  | reject _ => exact .inr ⟨_, .reject, fun _ => rfl⟩
  | abort _ => exact .inl fun _ => rfl
  | reserved _ _ => exact .inr ⟨_, .illegal, fun _ => rfl⟩
  | pushs bs => exact .inr ⟨_, .pushAll bs, fun _ => rfl⟩
  | sofV1 => exact .inr ⟨_, .pushAll [Config.magicV1], fun _ => rfl⟩
  | sofV2 => exact .inr ⟨_, .pushAll [Config.magicV2], fun _ => rfl⟩
  | noise b => exact .inr ⟨_, .pushAll [b], fun _ => rfl⟩
  | v1Frame r => exact .inr ⟨_, .pushAll r.wireBytes, fun _ => rfl⟩
  | v2FrameUnsigned r => exact .inr ⟨_, .pushAll r.wireBytes, fun _ => rfl⟩
  | v2FrameSigned r => exact .inr ⟨_, .pushAll r.wireBytes, fun _ => rfl⟩

/-- A step with nothing pending holds the state (R159, R201). -/
theorem step_of_port_nil {s : State} (h : s.port = []) : step s = .next s := by
  simp only [step, h]

/-- A view read that goes on leaves the state (R56). -/
theorem readOutcome_eq_next {v : View} {s t : State} (h : readOutcome v s = .next t) : t = s := by
  unfold readOutcome at h
  split at h
  · exact (Host.Outcome.next.inj h).symm
  · cases h
  · cases h

/-! ### Counts of a candidate and of a held frame (R29) -/

section
variable {s : State} (h : s.countAgrees)
include h

/-- A candidate that is not yet a frame holds its magic byte, and has room for one byte more. -/
theorem State.candidate_n_bounds (h0 : s.rxState ≠ .seeking) (he : s.rxState ≠ .emit) : 1 ≤ s.n ∧ s.n < 280 := by
  have hH := s.ver.hdrLen_bounds
  have hH' : s.hdrLen = s.ver.hdrLen := rfl
  have htotal := s.total_eq
  have hle := s.total_le
  unfold State.countAgrees at h
  cases hr : s.rxState <;> simp only [hr, ne_eq, reduceCtorEq, not_true_eq_false] at h h0 he <;> omega

/-- Past the payload, the header is in. -/
theorem State.hdrLen_le_n (hr : s.rxState = .checksum ∨ s.rxState = .signature) : s.hdrLen ≤ s.n := by
  unfold State.countAgrees at h
  rcases hr with hr | hr <;> simp only [hr] at h <;> omega

theorem State.n_eq_total (he : s.rxState = .emit) : s.n = s.total := by
  simpa only [State.countAgrees, he] using h

end

/-! ### The invariant, operation by operation -/

section
variable {s : State}

theorem State.Inv.withPort (h : s.Inv) (p : List HostEvent) : ({ s with port := p } : State).Inv :=
  ⟨h.countAgrees, h.queueEmptyOutsideEmit, h.storageBounded, h.crcAgrees, h.magicHeld, h.statusProduced, h.rawWf⟩

/-- Reporting a code the block produces keeps the invariant (R190, R192). -/
theorem State.Inv.report (h : s.Inv) {c : Code} (hc : (s.report c).statusProduced) : (s.report c).Inv :=
  ⟨h.countAgrees, h.queueEmptyOutsideEmit, h.storageBounded, h.crcAgrees, h.magicHeld, hc, h.rawWf⟩

/-- With nothing queued, the candidate's part of the invariant bounds the storage by itself (R31). -/
theorem CandidateInv.inv_of_queue_empty (h : CandidateInv s) (hq : s.pq = []) (hs : s.statusProduced) : s.Inv where
  countAgrees := h.countAgrees
  queueEmptyOutsideEmit := fun _ => hq
  storageBounded := by simpa [State.storageBounded, hq] using State.n_le_of_countAgrees h.countAgrees
  crcAgrees := h.crcAgrees
  magicHeld := h.magicHeld
  statusProduced := hs
  rawWf := h.rawWf

theorem inv_reset : State.reset.Inv :=
  CandidateInv.inv_of_queue_empty ⟨rfl, rfl, fun h => absurd rfl h, rfl⟩ rfl (.inl rfl)

theorem inv_resetBlock (s : State) : s.resetBlock.Inv := inv_reset.withPort s.port

theorem State.Inv.report_notReady (h : s.Inv) : (s.report .notReady).Inv := h.report (.inr (.inr (.inr (.inl rfl))))

/-- PUSH keeps the invariant: outside EMIT nothing is queued, and Consume keeps the candidate (R160). -/
theorem State.Inv.push (h : s.Inv) (b : Byte) : (s.push b).Inv := by
  by_cases he : s.rxState = .emit
  · rw [push_emit he]
    exact h.report_notReady
  · rw [push_of_ne_emit he]
    refine ((consume_keeps h.candidate b).report _).inv_of_queue_empty ?_ ?_
    · simpa using h.queueEmptyOutsideEmit he
    · split
      · exact .inl rfl
      · exact .inr (.inl rfl)

theorem State.Inv.pushAll (h : s.Inv) (bs : List Byte) : (s.pushAll bs).Inv := by
  induction bs generalizing s with
  | nil => exact h
  | cons b bs ih => exact ih (h.push b)

theorem State.Inv.validate (h : s.Inv) (xorOut : Word) (x : Byte) : (s.validate xorOut x).Inv := by
  unfold State.validate
  split
  · refine h.report ?_
    unfold State.verdict
    split
    · exact .inl rfl
    · exact .inr (.inr (.inl rfl))
  · exact h.report_notReady

/-- Drain moves bytes from the queue into the candidate, or drops them: the sum never grows (R31, R156). -/
theorem drainFrom_storageBounded (q : List Byte) (h : s.n + q.length ≤ 280) : (State.drainFrom q s).storageBounded := by
  induction q generalizing s with
  | nil => exact h
  | cons b q ih =>
    unfold State.drainFrom
    split
    · exact h
    · have hn := consume_n_le s b
      rw [List.length_cons] at h
      exact ih (by omega)

/-- A release with a queue that fits, drained and reported OK, meets the invariant (R162, R163). -/
theorem inv_release_drain (hwf : s.raw.wf = true) (hq : s.pq.length ≤ 280) : (s.release.drain.report .ok).Inv := by
  have hcand : CandidateInv s.release.drain := drainFrom_keepsCandidate _ (release_keeps hwf)
  exact
    { countAgrees := hcand.countAgrees
      queueEmptyOutsideEmit := (drainFrom_stops s.release.pq s.release).resolve_left
      storageBounded := drainFrom_storageBounded s.release.pq (by simpa using hq)
      crcAgrees := hcand.crcAgrees
      magicHeld := hcand.magicHeld
      statusProduced := .inl rfl
      rawWf := hcand.rawWf }

theorem State.Inv.accept (h : s.Inv) : s.accept.Inv := by
  have hb : s.n + s.pq.length ≤ 280 := h.storageBounded
  unfold State.accept
  split
  · exact inv_release_drain h.rawWf (by omega)
  · exact h.report_notReady

/-- REJECT keeps the invariant: the frame leaves RAW and all but its magic joins the queue (R163). -/
theorem State.Inv.reject (h : s.Inv) : s.reject.Inv := by
  have hb : s.n + s.pq.length ≤ 280 := h.storageBounded
  unfold State.reject
  split
  · refine inv_release_drain (s := s.requeue) h.rawWf ?_
    rw [State.requeue_pq, List.length_append, Memory.length_slice]
    omega
  · exact h.report_notReady

theorem CommandEffect.keeps_inv {f : State → State} (hf : CommandEffect f) (h : s.Inv) : (f s).Inv := by
  cases hf with
  | keep => exact h
  | illegal => exact h.report (.inr (.inr (.inr (.inr rfl))))
  | pushAll bs => exact h.pushAll bs
  | validate x => exact h.validate _ x
  | accept => exact h.accept
  | reject => exact h.reject

theorem exec_keeps_inv {i : Instr} {t : State} (h : s.Inv) (he : exec i s = .next t) : t.Inv := by
  rcases exec_shape i with habort | ⟨f, hf, hexec⟩
  · rw [habort] at he
    obtain rfl := Host.Outcome.next.inj he
    exact inv_resetBlock s
  · rw [hexec] at he
    obtain ⟨-, rfl⟩ := guarded_eq_next.mp he
    exact hf.keeps_inv h

theorem runEvent_keeps_inv {e : HostEvent} {t : State} (h : s.Inv) (he : runEvent e s = .next t) : t.Inv := by
  cases e with
  | issue u =>
    change runUnit u s = .next t at he
    cases hd : decode u with
    | ok i =>
      rw [runUnit_of_decode_ok hd] at he
      exact exec_keeps_inv h he
    | error r =>
      rw [runUnit_of_decode_error hd] at he
      cases he
  | reset =>
    obtain rfl := Host.Outcome.next.inj he
    exact inv_resetBlock s
  | read v =>
    obtain rfl := readOutcome_eq_next he
    exact h

theorem step_keeps_inv {t : State} (h : s.Inv) (he : step s = .next t) : t.Inv := by
  cases hp : s.port with
  | nil =>
    rw [step_of_port_nil hp] at he
    obtain rfl := Host.Outcome.next.inj he
    exact h
  | cons e rest =>
    rw [step_of_port_cons hp] at he
    exact runEvent_keeps_inv (h.withPort rest) he

/-- Every reachable state meets the invariant. -/
theorem Reachable.inv (h : Reachable s) : s.Inv := by
  induction h with
  | reset => exact inv_reset
  | host s p _ ih => exact ih.withPort p
  | step s t _ hstep ih => exact step_keeps_inv ih hstep

end

end Sys2Proof.Machine

namespace Sys2Proof.Proofs

open Sys2Proof.Machine

/-- Settles O34. -/
theorem invariantHoldsAtReset : Obligations.InvariantHoldsAtReset := inv_reset

/-- Settles O35: each act of the host is the reset, a read that changes nothing, or an instruction, whose one change keeps the
invariant. -/
theorem stepKeepsTheInvariant : Obligations.StepKeepsTheInvariant := fun _ _ => step_keeps_inv

/-- Settles O36, from the invariant of every reachable state. -/
theorem reachableStateAndCountAgree : Obligations.ReachableStateAndCountAgree := fun _ h => h.inv.countAgrees

/-- Settles O37, from the invariant of every reachable state. -/
theorem reachableQueueIsEmptyOutsideEmit : Obligations.ReachableQueueIsEmptyOutsideEmit :=
  fun _ h => h.inv.queueEmptyOutsideEmit

/-- Settles O38: a queue of 280 bytes would leave no room for the frame that EMIT holds. -/
theorem reachableStorageIsBounded : Obligations.ReachableStorageIsBounded := by
  intro s h
  have hb : s.n + s.pq.length ≤ 280 := h.inv.storageBounded
  refine ⟨hb, fun hq => ?_⟩
  have hemit : s.rxState = .emit := by
    by_contra he
    exact hq (h.inv.queueEmptyOutsideEmit he)
  have hn := State.n_eq_total h.inv.countAgrees hemit
  have htotal := s.total_eq
  omega

/-- Settles O39, from the invariant of every reachable state. -/
theorem reachableCrcAgrees : Obligations.ReachableCrcAgrees := by
  intro s h
  have hcrc := h.inv.crcAgrees
  unfold State.crcAgrees at hcrc
  constructor
  · intro hs
    rwa [if_pos hs] at hcrc
  · intro hs
    rwa [if_neg hs] at hcrc

end Sys2Proof.Proofs
end

section
/-! PROOFS. The family 10_state: the views (R36 to R46), and the reset state as the host reads it (R47). -/

namespace Sys2Proof.Machine

/-! ### What a read answers, and where a view is defined -/

section
variable {v : View} {s : State}

/-- A trailer view is a frame view, and exists (R43). -/
theorem View.frame_of_ofTrailer (h : v.ofTrailer = true) : v.alwaysDefined = false ∧ v.named = true := by
  cases v <;> simp_all [View.ofTrailer, View.alwaysDefined, View.named]

theorem View.read_of_domainFault {f : Fault} (hn : v.named = true) (h : v.domainFault s = some f) : v.read s = .fault f := by
  simp [View.read, hn, h]

theorem View.read_of_defined (hn : v.named = true) (h : v.domainFault s = none) : v.read s = .value (v.value s) := by
  simp [View.read, hn, h]

/-- A frame view faults while no frame is held (R46). -/
theorem View.domainFault_outside_emit (hv : v.alwaysDefined = false) (h : s.rxState ≠ .emit) :
    v.domainFault s = some .frameViewOutsideEmit := by
  simp [View.domainFault, hv, h]

/-- A trailer view of a held unsigned frame faults (R43). -/
theorem View.domainFault_unsigned (hv : v.ofTrailer = true) (he : s.rxState = .emit) (h : s.signed = false) :
    v.domainFault s = some .trailerViewUnsigned := by
  simp [View.domainFault, (View.frame_of_ofTrailer hv).1, he, hv, h]

/-- RAWOUT ends with the held frame (R45). -/
theorem View.domainFault_rawOut_beyond {i : Nat} (he : s.rxState = .emit) (h : s.total ≤ i) :
    (View.rawOut i).domainFault s = some .rawOutBeyondFrame := by
  simp [View.domainFault, View.alwaysDefined, View.ofTrailer, he, h]

/-- Where a view has a value (R36 to R46): always for the handshake views, else while a frame is held that has the byte. -/
theorem View.domainFault_eq_none :
    v.domainFault s = none ↔ v.alwaysDefined = true ∨
      s.rxState = .emit ∧ (v.ofTrailer = true → s.signed = true) ∧ ∀ i, v = .rawOut i → i < s.total := by
  unfold View.domainFault
  cases ha : v.alwaysDefined with
  | true => simp
  | false =>
    by_cases he : s.rxState = .emit
    · cases v <;> cases hs : s.signed <;> simp_all [View.ofTrailer]
    · simp [he]

/-- The read of a frame view that is no trailer view and no RAWOUT, while a frame is held. -/
theorem View.read_held (he : s.rxState = .emit) (hn : v.named = true) (ht : v.ofTrailer = false)
    (hr : ∀ i, v ≠ .rawOut i) : v.read s = .value (v.value s) :=
  View.read_of_defined hn (View.domainFault_eq_none.mpr (.inr ⟨he, by simp [ht], fun i h => absurd h (hr i)⟩))

/-- The read of a trailer view, while a signed frame is held. -/
theorem View.read_trailer (he : s.rxState = .emit) (hs : s.signed = true) (ht : v.ofTrailer = true) :
    v.read s = .value (v.value s) := by
  refine View.read_of_defined (View.frame_of_ofTrailer ht).2 (View.domainFault_eq_none.mpr (.inr ⟨he, fun _ => hs, ?_⟩))
  rintro i rfl
  cases ht

end

/-! ### The fields of a held frame, by version -/

/-- A flag as a one-bit view. -/
theorem ofBool_eq_ite {b : Bool} {p : Prop} [Decidable p] (h : b = true ↔ p) : BitVec.ofBool b = if p then 1 else 0 := by
  cases b <;> simp_all

theorem version_bit_eq (v : Version) : v.bit = if v = .v2 then 1 else 0 := by cases v <;> rfl

/-- `signed` is bit 0 of `incompat_flags` of a V2 frame (R14, R77). -/
theorem signedOf_eq_true_iff {v : Version} {incompat : Byte} :
    signedOf v incompat = true ↔ v = .v2 ∧ incompat.getLsbD 0 = true := by
  cases v with
  | v1 => simp [signedOf]
  | v2 =>
    have hmask : incompat &&& 1#8 = (BitVec.ofBool (incompat.getLsbD 0)).setWidth 8 :=
      BitVec.and_one_eq_setWidth_ofBool_getLsbD
    cases hbit : incompat.getLsbD 0 <;> rw [hbit] at hmask <;> simp [signedOf, Config.signedMask, hmask]

section
variable (s : State)

theorem State.signed_eq_true_iff : s.signed = true ↔ s.ver = .v2 ∧ (s.raw.read 2).getLsbD 0 = true :=
  signedOf_eq_true_iff

theorem State.field_eq (offV1 offV2 : Nat) :
    s.field offV1 offV2 = if s.ver = .v2 then s.raw.read offV2 else s.raw.read offV1 := by
  cases hv : s.ver <;> simp [State.field, hv]

theorem State.flagField_eq (offV2 : Nat) : s.flagField offV2 = if s.ver = .v2 then s.raw.read offV2 else 0 := by
  cases hv : s.ver <;> simp [State.flagField, hv]

theorem State.msgid_eq :
    s.msgid = if s.ver = .v2 then le24 (s.raw.read 7) (s.raw.read 8) (s.raw.read 9) else (s.raw.read 5).zeroExtend 24 := by
  cases hv : s.ver <;> simp [State.msgid, hv]

theorem State.advUnknownIncompat_eq_true_iff :
    s.advUnknownIncompat = true ↔ s.ver = .v2 ∧ s.raw.read 2 &&& 0xFE ≠ 0 := by
  cases hv : s.ver <;> simp [State.advUnknownIncompat, hv, Config.signedMask]

theorem State.hdrLen_eq : s.hdrLen = if s.ver = .v2 then 10 else 6 := by
  unfold State.hdrLen
  cases s.ver <;> rfl

theorem State.total_eq_by_version :
    s.total = s.hdrLen + s.len + 2 + (if s.ver = .v2 ∧ (s.raw.read 2).getLsbD 0 = true then 13 else 0) := by
  simp only [s.total_eq, s.signed_eq_true_iff]

end

/-! ### The timestamp as a number (R43, R51) -/

/-- Bits at and above a place, joined to bits below it, add up. -/
theorem or_shiftLeft_eq_add {a k : Nat} (b : Nat) (h : a < 2 ^ k) : a ||| b <<< k = a + b <<< k := by
  rw [Nat.or_comm, Nat.add_comm, Nat.shiftLeft_add_eq_or_of_lt h]

/-- A byte moved up inside 48 bits loses nothing. -/
theorem toNat_byte_shiftLeft (b : Byte) {k : Nat} (h : k ≤ 40) : (b.zeroExtend 48 <<< k).toNat = b.toNat <<< k := by
  have hb : b.toNat < 2 ^ 8 := b.isLt
  have hk : b.toNat * 2 ^ k < 2 ^ 48 := calc
    b.toNat * 2 ^ k < 2 ^ 8 * 2 ^ k := Nat.mul_lt_mul_of_pos_right hb (Nat.two_pow_pos k)
    _ = 2 ^ (8 + k) := (Nat.pow_add 2 8 k).symm
    _ ≤ 2 ^ 48 := Nat.pow_le_pow_right (by decide) (by omega)
  rw [BitVec.toNat_shiftLeft, BitVec.zeroExtend, BitVec.toNat_setWidth_of_le (by decide), Nat.shiftLeft_eq, Nat.mod_eq_of_lt hk]

/-- Six bytes, the first the least significant, are their weighted sum (R51). -/
theorem toNat_le48 (b0 b1 b2 b3 b4 b5 : Byte) :
    (le48 b0 b1 b2 b3 b4 b5).toNat = b0.toNat + b1.toNat <<< 8 + b2.toNat <<< 16 + b3.toNat <<< 24 + b4.toNat <<< 32 +
      b5.toNat <<< 40 := by
  have h0 := b0.isLt
  have h1 := b1.isLt
  have h2 := b2.isLt
  have h3 := b3.isLt
  have h4 := b4.isLt
  simp (disch := decide) only [le48, BitVec.toNat_or, toNat_byte_shiftLeft]
  rw [BitVec.zeroExtend, BitVec.toNat_setWidth_of_le (by decide)]
  simp (disch := omega) only [or_shiftLeft_eq_add]

end Sys2Proof.Machine

namespace Sys2Proof.Proofs

open Sys2Proof.Machine

/-- Settles O9: the elements by R47; a frame view faults because the reset state is SEEKING. -/
theorem resetStateHasTheSpecValues : Obligations.ResetStateHasTheSpecValues := by
  refine ⟨rfl, rfl, rfl, rfl, rfl, rfl, rfl, rfl, rfl, fun v hframe hnamed => ?_⟩
  exact View.read_of_domainFault hnamed (View.domainFault_outside_emit hframe (by decide))

/-- Settles O44: no domain test applies to the three handshake views. -/
theorem handshakeViewsAreAlwaysDefined : Obligations.HandshakeViewsAreAlwaysDefined := by
  intro s
  have hread (v : View) (hn : v.named = true) (ha : v.alwaysDefined = true) : v.read s = .value (v.value s) :=
    View.read_of_defined hn (View.domainFault_eq_none.mpr (.inl ha))
  refine ⟨(hread .inReady rfl rfl).trans ?_, (hread .frameValid rfl rfl).trans ?_, hread .statusOut rfl rfl⟩
  · exact congrArg ReadResult.value (ofBool_eq_ite (by simp [State.inReady]))
  · exact congrArg ReadResult.value (ofBool_eq_ite (by simp [State.frameValid]))

/-- Settles O45: one domain test for each clause, and the name test of PAYLOAD before them. -/
theorem readsOutsideAViewsDomainStop : Obligations.ReadsOutsideAViewsDomainStop := by
  intro s v
  refine ⟨fun hframe hnamed he => ?_, fun htrailer he hs => ?_, ?_, ?_⟩
  · exact View.read_of_domainFault hnamed (View.domainFault_outside_emit hframe he)
  · exact View.read_of_domainFault (View.frame_of_ofTrailer htrailer).2 (View.domainFault_unsigned htrailer he hs)
  · rintro i rfl he hi
    exact View.read_of_domainFault rfl (View.domainFault_rawOut_beyond he hi)
  · rintro i rfl hi
    have hnamed : (View.payload i).named = false := decide_eq_false (show ¬ i < 255 by omega)
    simp [View.read, hnamed]

/-- Settles O46: each view of a held frame has its value, read off by version. -/
theorem frameViewsReadTheRawBytes : Obligations.FrameViewsReadTheRawBytes := by
  intro s he
  have held {v : View} {x : BitVec v.width} (hn : v.named = true) (ht : v.ofTrailer = false) (hr : ∀ i, v ≠ .rawOut i)
      (hx : v.value s = x) : v.read s = .value x := hx ▸ View.read_held he hn ht hr
  refine ⟨held rfl rfl nofun (version_bit_eq s.ver), held rfl rfl nofun rfl, held rfl rfl nofun (s.flagField_eq 2),
    held rfl rfl nofun (s.flagField_eq 3), held rfl rfl nofun (s.field_eq 2 4), held rfl rfl nofun (s.field_eq 3 5),
    held rfl rfl nofun (s.field_eq 4 6), held rfl rfl nofun s.msgid_eq, held rfl rfl nofun rfl,
    held rfl rfl nofun (ofBool_eq_ite s.signed_eq_true_iff),
    held rfl rfl nofun (ofBool_eq_ite s.advUnknownIncompat_eq_true_iff), fun i hi => ?_, held rfl rfl nofun rfl,
    fun i hi => ?_, s.hdrLen_eq, s.total_eq_by_version⟩
  · exact held (decide_eq_true hi) rfl nofun rfl
  · refine View.read_of_defined rfl (View.domainFault_eq_none.mpr (.inr ⟨he, nofun, ?_⟩))
    rintro _ ⟨⟩
    exact hi

/-- Settles O47: a signed frame's trailer views have their values, an unsigned frame's fault. -/
theorem trailerViewsReadTheRawBytes : Obligations.TrailerViewsReadTheRawBytes := by
  intro s he
  constructor
  · intro hs
    refine ⟨View.read_trailer he hs rfl, ⟨s.timestamp, View.read_trailer he hs rfl, ?_⟩, fun j => View.read_trailer he hs rfl⟩
    exact (toNat_le48 _ _ _ _ _ _).trans (by simp [List.range, List.range.loop, State.trailerOffset, Config.ckLen, Nat.add_assoc])
  · intro hs
    have unsigned {v : View} (ht : v.ofTrailer = true) : v.read s = .fault .trailerViewUnsigned :=
      View.read_of_domainFault (View.frame_of_ofTrailer ht).2 (View.domainFault_unsigned ht he hs)
    exact ⟨unsigned rfl, unsigned rfl, fun _ => unsigned rfl⟩

end Sys2Proof.Proofs
end

section
/-! PROOFS. The family 10_state: what is stale is never seen (R23, R24, U2, U12): two states that differ only so have the same views and take the same steps. -/

namespace Sys2Proof.Machine

/-! ### What two states that differ only in what is stale agree on -/

namespace State.SameObservable

section
variable {s t : State} (h : s.SameObservable t)
include h

theorem hdrLen (h0 : s.rxState ≠ .seeking) : s.hdrLen = t.hdrLen := congrArg Version.hdrLen (h.ver h0)

theorem len (hn : 2 ≤ s.n) : s.len = t.len := congrArg BitVec.toNat (h.raw 1 (by omega))

theorem signed (h0 : s.rxState ≠ .seeking) (hn : 3 ≤ s.n) : s.signed = t.signed := by
  unfold State.signed
  rw [h.ver h0, h.raw 2 (by omega)]

theorem total (h0 : s.rxState ≠ .seeking) (hn : 3 ≤ s.n) : s.total = t.total := by
  rw [s.total_eq, t.total_eq, h.hdrLen h0, h.len (by omega), h.signed h0 hn]

theorem codeFault : s.codeFault = t.codeFault := by
  unfold State.codeFault
  rw [h.rxState, h.status]

/-- The state advance of R155 reads the length byte and the signed bit only once they are in. -/
theorem nextRx (hn : 2 ≤ s.n) (hsig : s.rxState = .checksum ∨ s.rxState = .signature → 3 ≤ s.n) : s.nextRx = t.nextRx := by
  unfold State.nextRx
  rw [← h.rxState, ← h.n, ← h.len hn]
  cases hr : s.rxState with
  | header => simp only [h.hdrLen (by simp [hr])]
  | payload => simp only [h.hdrLen (by simp [hr])]
  | checksum => simp only [h.hdrLen (by simp [hr]), h.signed (by simp [hr]) (hsig (.inl hr))]
  | signature => simp only [h.total (by simp [hr]) (hsig (.inr hr))]
  | _ => rfl

/-! #### The operations -/

theorem withPort (p : List HostEvent) : State.SameObservable { s with port := p } { t with port := p } :=
  ⟨h.rxState, h.ver, h.n, h.raw, h.crcRun, h.pq, h.status, rfl⟩

theorem withPq (q : List Byte) : State.SameObservable { s with pq := q } { t with pq := q } :=
  ⟨h.rxState, h.ver, h.n, h.raw, h.crcRun, rfl, h.status, h.port⟩

theorem report (c : Code) : (s.report c).SameObservable (t.report c) :=
  ⟨h.rxState, h.ver, h.n, h.raw, h.crcRun, h.pq, rfl, h.port⟩

/-- The candidate opened is the same, whatever RAW and the version were (R153). -/
theorem openCandidate (hs : s.raw.wf = true) (ht : t.raw.wf = true) (v : Version) (b : Byte) :
    (s.openCandidate v b).SameObservable (t.openCandidate v b) where
  rxState := rfl
  ver := fun _ => rfl
  n := rfl
  raw := by
    intro i hi
    obtain rfl : i = 0 := Nat.lt_one_iff.mp hi
    rw [State.openCandidate_raw, State.openCandidate_raw, Memory.read_write_same hs, Memory.read_write_same ht]
  crcRun := rfl
  pq := h.pq
  status := h.status
  port := h.port

/-- The byte stored joins the bytes the two states agree on (R154). -/
theorem store (hs : s.raw.wf = true) (ht : t.raw.wf = true) (hn : s.n < 280) (b : Byte) :
    (s.store b).SameObservable (t.store b) where
  rxState := h.rxState
  ver := h.ver
  n := congrArg (· + 1) h.n
  raw := by
    intro i hi
    have hcap : s.n < Config.rawCap := hn
    rw [State.store_n] at hi
    rw [State.store_raw, State.store_raw, ← h.n, if_pos hcap, if_pos hcap, Memory.read_write hs, Memory.read_write ht]
    split
    · rfl
    · exact h.raw i (by omega)
  crcRun := h.crcRun
  pq := h.pq
  status := h.status
  port := h.port

theorem foldCrc (b : Byte) : (s.foldCrc b).SameObservable (t.foldCrc b) :=
  ⟨h.rxState, h.ver, h.n, h.raw, congrArg (crcAccumulate · b) h.crcRun, h.pq, h.status, h.port⟩

theorem advance (h0 : s.rxState ≠ .seeking) (hn : 2 ≤ s.n)
    (hsig : s.rxState = .checksum ∨ s.rxState = .signature → 3 ≤ s.n) : s.advance.SameObservable t.advance :=
  ⟨h.nextRx hn hsig, fun _ => h.ver h0, h.n, h.raw, h.crcRun, h.pq, h.status, h.port⟩

/-- In SEEKING all of RAW is stale. -/
theorem release : s.release.SameObservable t.release :=
  ⟨rfl, fun h0 => absurd rfl h0, rfl, fun _ hi => absurd hi (Nat.not_lt_zero _), rfl, h.pq, h.status, h.port⟩

/-- The bytes replayed all lie below n (R163). -/
theorem requeue : s.requeue.SameObservable t.requeue where
  rxState := h.rxState
  ver := h.ver
  n := h.n
  raw := h.raw
  crcRun := h.crcRun
  pq := by
    have hslice : s.raw.slice 1 s.n = t.raw.slice 1 s.n := Memory.slice_congr fun i _ hi => h.raw i hi
    rw [State.requeue_pq, State.requeue_pq, ← h.n, hslice, h.pq]
  status := h.status
  port := h.port

theorem resetBlock : s.resetBlock.SameObservable t.resetBlock :=
  ⟨rfl, fun _ => rfl, rfl, fun _ _ => rfl, rfl, rfl, rfl, h.port⟩

end

end State.SameObservable

/-! ### Consume and the commands, on two states with candidates that agree -/

/-- Two states with the candidate's part of the invariant that differ only in what is stale. -/
structure State.Alike (s t : State) : Prop where
  left : CandidateInv s
  right : CandidateInv t
  same : s.SameObservable t

namespace State.Alike

section
variable {s t : State} (h : s.Alike t)
include h

theorem withPort (p : List HostEvent) : State.Alike { s with port := p } { t with port := p } :=
  ⟨h.left.withPort p, h.right.withPort p, h.same.withPort p⟩

theorem withPq (q : List Byte) : State.Alike { s with pq := q } { t with pq := q } :=
  ⟨h.left.withPq q, h.right.withPq q, h.same.withPq q⟩

theorem report (c : Code) : (s.report c).Alike (t.report c) :=
  ⟨h.left.report c, h.right.report c, h.same.report c⟩

theorem requeue : s.requeue.Alike t.requeue := ⟨h.left.withPq _, h.right.withPq _, h.same.requeue⟩

theorem release : s.release.Alike t.release := ⟨release_keeps h.left.rawWf, release_keeps h.right.rawWf, h.same.release⟩

theorem sameObservable_consume (b : Byte) : (s.consume b).SameObservable (t.consume b) := by
  have hrx : t.rxState = s.rxState := h.same.rxState.symm
  have count := State.candidate_n_bounds h.left.countAgrees
  have stored (h0 : s.rxState ≠ .seeking) (he : s.rxState ≠ .emit) : (s.store b).SameObservable (t.store b) :=
    h.same.store h.left.rawWf h.right.rawWf (count h0 he).2 b
  rcases consume_cases s b with ⟨hr, v, hb, e⟩ | ⟨hr, hb, e⟩ | ⟨hr, e⟩ | ⟨hr, e⟩ | ⟨hr, e⟩
  · rw [e, consume_magic (hrx.trans hr) hb]
    exact h.same.openCandidate h.left.rawWf h.right.rawWf v b
  · rw [e, consume_noise (hrx.trans hr) hb]
    exact h.same
  · -- HEADER and PAYLOAD: the byte is checksummed
    have h0 : s.rxState ≠ .seeking := by rcases hr with hr | hr <;> simp [hr]
    have he : s.rxState ≠ .emit := by rcases hr with hr | hr <;> simp [hr]
    have et : t.consume b = ((t.store b).foldCrc b).advance := by
      rw [← hrx] at hr
      exact hr.elim consume_header consume_payload
    rw [e, et]
    refine ((stored h0 he).foldCrc b).advance h0 (Nat.succ_le_succ (count h0 he).1) fun hr' => ?_
    rcases hr with hr | hr <;> simp [hr] at hr'
  · -- CHECKSUM and SIGNATURE: the byte is not checksummed
    have h0 : s.rxState ≠ .seeking := by rcases hr with hr | hr <;> simp [hr]
    have he : s.rxState ≠ .emit := by rcases hr with hr | hr <;> simp [hr]
    have hle := State.hdrLen_le_n h.left.countAgrees hr
    have hH : 6 ≤ s.hdrLen := s.ver.hdrLen_bounds.1
    have et : t.consume b = (t.store b).advance := by
      rw [← hrx] at hr
      exact hr.elim consume_checksum consume_signature
    rw [e, et]
    exact (stored h0 he).advance h0 (by rw [State.store_n]; omega) fun _ => by rw [State.store_n]; omega
  · -- the block takes no byte
    have et : t.consume b = t := by rcases hr with hr | hr | hr <;> simp [State.consume, hrx, hr]
    rw [e, et]
    exact h.same

theorem consume (b : Byte) : (s.consume b).Alike (t.consume b) :=
  ⟨consume_keeps h.left b, consume_keeps h.right b, h.sameObservable_consume b⟩

theorem push (b : Byte) : (s.push b).Alike (t.push b) := by
  by_cases he : s.rxState = .emit
  · rw [push_emit he, push_emit (h.same.rxState ▸ he)]
    exact h.report _
  · rw [push_of_ne_emit he, push_of_ne_emit (h.same.rxState ▸ he), ← (h.consume b).same.rxState]
    exact (h.consume b).report _

theorem pushAll (bs : List Byte) : (s.pushAll bs).Alike (t.pushAll bs) := by
  induction bs generalizing s t with
  | nil => exact h
  | cons b bs ih => exact ih (h.push b)

theorem drainFrom (q : List Byte) : (State.drainFrom q s).Alike (State.drainFrom q t) := by
  induction q generalizing s t with
  | nil => exact h.withPq []
  | cons b q ih =>
    by_cases he : s.rxState = .emit
    · rw [State.drainFrom, State.drainFrom, if_pos he, if_pos (h.same.rxState ▸ he)]
      exact h.withPq _
    · rw [State.drainFrom, State.drainFrom, if_neg he, if_neg (h.same.rxState ▸ he)]
      exact ih (h.consume b)

theorem drain : s.drain.Alike t.drain := by
  unfold State.drain
  rw [← h.same.pq]
  exact h.drainFrom s.pq

end

/-! #### A held frame: what the views and VALIDATE read of it -/

section
variable {s t : State} (h : s.Alike t) (he : s.rxState = .emit)
include h he

/-- A held frame is all below n, and is at least a header and a checksum. -/
theorem held_bounds : s.n = s.total ∧ s.hdrLen + s.len + 2 ≤ s.total ∧ 6 ≤ s.hdrLen :=
  ⟨State.n_eq_total h.left.countAgrees he, Nat.le_add_right _ _, s.ver.hdrLen_bounds.1⟩

theorem ver : s.ver = t.ver := h.same.ver (by simp [he])

theorem read {i : Nat} (hi : i < s.total) : s.raw.read i = t.raw.read i :=
  h.same.raw i ((h.held_bounds he).1 ▸ hi)

theorem hdrLen : s.hdrLen = t.hdrLen := congrArg Version.hdrLen (h.ver he)

theorem len : s.len = t.len := by
  have hb := h.held_bounds he
  exact h.same.len (by omega)

theorem signed : s.signed = t.signed := by
  have hb := h.held_bounds he
  exact h.same.signed (by simp [he]) (by omega)

theorem total : s.total = t.total := by
  rw [s.total_eq, t.total_eq, h.hdrLen he, h.len he, h.signed he]

theorem field {i j : Nat} (hi : i < 8) (hj : j < 8) : s.field i j = t.field i j := by
  have hb := h.held_bounds he
  rw [State.field_eq, State.field_eq, h.ver he, h.read he (i := i) (by omega), h.read he (i := j) (by omega)]

theorem flagField {i : Nat} (hi : i < 8) : s.flagField i = t.flagField i := by
  have hb := h.held_bounds he
  rw [State.flagField_eq, State.flagField_eq, h.ver he, h.read he (i := i) (by omega)]

theorem msgid : s.msgid = t.msgid := by
  have hb := h.held_bounds he
  have hH := s.hdrLen_eq
  rw [State.msgid_eq, State.msgid_eq, ← h.ver he]
  split
  · rw [if_pos ‹_›] at hH
    rw [h.read he (i := 7) (by omega), h.read he (i := 8) (by omega), h.read he (i := 9) (by omega)]
  · rw [h.read he (i := 5) (by omega)]

theorem advUnknownIncompat : s.advUnknownIncompat = t.advUnknownIncompat := by
  have hb := h.held_bounds he
  unfold State.advUnknownIncompat
  rw [h.ver he, h.read he (i := 2) (by omega)]

theorem receivedChecksum : s.receivedChecksum = t.receivedChecksum := by
  have hb := h.held_bounds he
  unfold State.receivedChecksum
  rw [← h.hdrLen he, ← h.len he, h.read he (by omega), h.read he (by omega)]

theorem payloadByte (i : Nat) : s.payloadByte i = t.payloadByte i := by
  have hb := h.held_bounds he
  unfold State.payloadByte
  rw [← h.len he, ← h.hdrLen he]
  split
  · exact h.read he (by omega)
  · rfl

/-- The 13 bytes of a signed frame's trailer (R43, R128). -/
theorem trailerByte (hs : s.signed = true) {k : Nat} (hk : k < 13) :
    s.raw.read (s.trailerOffset + k) = t.raw.read (t.trailerOffset + k) := by
  have htotal : s.total = s.trailerOffset + 13 := by rw [s.total_eq, if_pos hs]; rfl
  have hT : s.trailerOffset = t.trailerOffset := by
    unfold State.trailerOffset
    rw [h.hdrLen he, h.len he]
  rw [← hT]
  exact h.read he (by omega)

theorem timestamp (hs : s.signed = true) : s.timestamp = t.timestamp := by
  unfold State.timestamp
  simp only [h.trailerByte he hs (show 1 < 13 by decide), h.trailerByte he hs (show 2 < 13 by decide),
    h.trailerByte he hs (show 3 < 13 by decide), h.trailerByte he hs (show 4 < 13 by decide),
    h.trailerByte he hs (show 5 < 13 by decide), h.trailerByte he hs (show 6 < 13 by decide)]

end

section
variable {s t : State} (h : s.Alike t)
include h

/-! #### VALIDATE, ACCEPT, REJECT -/

theorem validate (xorOut : Word) (x : Byte) : (s.validate xorOut x).Alike (t.validate xorOut x) := by
  unfold State.validate
  rw [← h.same.rxState]
  split
  · have hverdict : s.verdict xorOut x = t.verdict xorOut x := by
      unfold State.verdict
      rw [h.same.crcRun, h.receivedChecksum ‹_›]
    rw [hverdict]
    exact h.report _
  · exact h.report _

theorem accept : s.accept.Alike t.accept := by
  unfold State.accept
  rw [← h.same.rxState]
  split
  · exact h.release.drain.report _
  · exact h.report _

theorem reject : s.reject.Alike t.reject := by
  unfold State.reject
  rw [← h.same.rxState]
  split
  · exact h.requeue.release.drain.report _
  · exact h.report _

theorem effect {f : State → State} (hf : CommandEffect f) : (f s).Alike (f t) := by
  cases hf with
  | keep => exact h
  | illegal => exact h.report _
  | pushAll bs => exact h.pushAll bs
  | validate x => exact h.validate _ x
  | accept => exact h.accept
  | reject => exact h.reject

/-! #### The views -/

theorem domainFault (v : View) : v.domainFault s = v.domainFault t := by
  unfold View.domainFault
  rw [← h.same.rxState]
  by_cases he : s.rxState = .emit
  · rw [h.signed he, h.total he]
  · simp only [ne_eq, he, not_false_eq_true, if_true]

/-- A view in its domain reads only RAW below n, which is L while a frame is held. -/
theorem value {v : View} (hd : v.domainFault s = none) : v.value s = v.value t := by
  by_cases ha : v.alwaysDefined = true
  · cases v with
    | inReady => exact congrArg (fun r => BitVec.ofBool (r != .emit)) h.same.rxState
    | frameValid => exact congrArg (fun r => BitVec.ofBool (r == .emit)) h.same.rxState
    | statusOut => exact h.same.status
    | _ => cases ha
  · obtain ⟨he, htrailer, hraw⟩ := (View.domainFault_eq_none.mp hd).resolve_left ha
    have hb := h.held_bounds he
    cases v with
    | inReady | frameValid | statusOut => exact absurd rfl ha
    | outVersion => exact congrArg Version.bit (h.ver he)
    | outLen => exact h.read he (by omega)
    | outIncompat => exact h.flagField he (by decide)
    | outCompat => exact h.flagField he (by decide)
    | outSeq => exact h.field he (by decide) (by decide)
    | outSys => exact h.field he (by decide) (by decide)
    | outComp => exact h.field he (by decide) (by decide)
    | outMsgid => exact h.msgid he
    | outChecksum => exact h.receivedChecksum he
    | outSigned => exact congrArg BitVec.ofBool (h.signed he)
    | outAdvUnknownIncompat => exact congrArg BitVec.ofBool (h.advUnknownIncompat he)
    | outLinkId => exact h.trailerByte he (htrailer rfl) (k := 0) (by decide)
    | outTimestamp => exact h.timestamp he (htrailer rfl)
    | outSig j =>
      change s.raw.read (s.trailerOffset + 7 + j.val) = t.raw.read (t.trailerOffset + 7 + j.val)
      rw [Nat.add_assoc, Nat.add_assoc]
      exact h.trailerByte he (htrailer rfl) (k := 7 + j.val) (by omega)
    | payload i => exact h.payloadByte he i
    | outTotalLen => exact congrArg (BitVec.ofNat 9) (h.total he)
    | rawOut i => exact h.read he (hraw i rfl)

theorem viewRead (v : View) : v.read s = v.read t := by
  unfold View.read
  rw [← h.domainFault v]
  cases hd : v.domainFault s with
  | some f => rfl
  | none => simp only [h.value hd]

theorem readOutcome (v : View) :
    outcomesRelated State.SameObservable (Machine.readOutcome v s) (Machine.readOutcome v t) := by
  unfold Machine.readOutcome
  rw [← h.viewRead v]
  cases v.read s with
  | value _ => exact h.same
  | fault _ => rfl
  | refused _ => rfl

/-! #### The step -/

theorem guarded {s' t' : State} (h' : s'.SameObservable t') :
    outcomesRelated State.SameObservable (Machine.guarded s s') (Machine.guarded t t') := by
  unfold Machine.guarded
  rw [← h.same.codeFault]
  cases s.codeFault with
  | some _ => rfl
  | none => exact h'

theorem exec (i : Instr) : outcomesRelated State.SameObservable (Machine.exec i s) (Machine.exec i t) := by
  rcases exec_shape i with habort | ⟨f, hf, hexec⟩
  · rw [habort, habort]
    exact h.same.resetBlock
  · rw [hexec, hexec]
    exact h.guarded (h.effect hf).same

theorem runEvent (e : HostEvent) :
    outcomesRelated State.SameObservable (Machine.runEvent e s) (Machine.runEvent e t) := by
  cases e with
  | issue u =>
    change outcomesRelated _ (runUnit u s) (runUnit u t)
    cases hd : decode u with
    | ok i =>
      rw [runUnit_of_decode_ok hd, runUnit_of_decode_ok hd]
      exact h.exec i
    | error r =>
      rw [runUnit_of_decode_error hd, runUnit_of_decode_error hd]
      rfl
  | reset => exact h.same.resetBlock
  | read v => exact h.readOutcome v

theorem step : outcomesRelated State.SameObservable (Machine.step s) (Machine.step t) := by
  cases hp : s.port with
  | nil =>
    rw [step_of_port_nil hp, step_of_port_nil (h.same.port ▸ hp)]
    exact h.same
  | cons e rest =>
    rw [step_of_port_cons hp, step_of_port_cons (h.same.port ▸ hp)]
    exact (h.withPort rest).runEvent e

end

end State.Alike

end Sys2Proof.Machine

namespace Sys2Proof.Proofs

open Sys2Proof.Machine

/-- Settles O43: every rule reads RAW below n only, and the version outside SEEKING only, so the views agree and each operation keeps
the relation. -/
theorem staleStorageIsUnobservable : Obligations.StaleStorageIsUnobservable := by
  intro s t hs ht hsame
  have h : s.Alike t := ⟨hs.candidate, ht.candidate, hsame⟩
  exact ⟨h.viewRead, h.step⟩

end Sys2Proof.Proofs
end

section
/-! PROOFS. The family 20_memory: PUSH is the one way bytes enter the block (R50, R54), so a unit of the wire is the PUSH of its bytes. -/

namespace Sys2Proof.Machine

/-! ### What the commands and units that offer bytes do: each is the PUSH of its bytes, guarded -/

@[simp] theorem exec_push (b : Byte) (s : State) : exec (.push b) s = guarded s (s.push b) := rfl

@[simp] theorem exec_pushs (bs : List Byte) (s : State) : exec (.pushs bs) s = guarded s (s.pushAll bs) := rfl

@[simp] theorem exec_sofV1 (s : State) : exec .sofV1 s = guarded s (s.push 0xFE) := rfl

@[simp] theorem exec_sofV2 (s : State) : exec .sofV2 s = guarded s (s.push 0xFD) := rfl

@[simp] theorem exec_noise (b : Byte) (s : State) : exec (.noise b) s = guarded s (s.push b) := rfl

@[simp] theorem exec_v1Frame (r : FrameRecord) (s : State) :
    exec (.v1Frame r) s = guarded s (s.pushAll r.wireBytes) := rfl

@[simp] theorem exec_v2FrameUnsigned (r : FrameRecord) (s : State) :
    exec (.v2FrameUnsigned r) s = guarded s (s.pushAll r.wireBytes) := rfl

@[simp] theorem exec_v2FrameSigned (r : FrameRecord) (s : State) :
    exec (.v2FrameSigned r) s = guarded s (s.pushAll r.wireBytes) := rfl

end Sys2Proof.Machine

namespace Sys2Proof.Proofs

open Sys2Proof.Machine

/-- Settles O26: both sides are the guarded PUSH of the same bytes, one byte by PUSH and a frame's bytes by PUSHS. -/
theorem wireUnitIsThePushOfItsBytes : Obligations.WireUnitIsThePushOfItsBytes := by
  intro s
  refine ⟨?sofV1, ?sofV2, ?noise, fun r => ⟨?v1Frame, ?v2FrameUnsigned, ?v2FrameSigned⟩⟩
  case sofV1 => rw [exec_sofV1, exec_push]
  case sofV2 => rw [exec_sofV2, exec_push]
  case noise =>
    intro b
    rw [exec_noise, exec_push]
  case v1Frame => rw [exec_v1Frame, exec_pushs]
  case v2FrameUnsigned => rw [exec_v2FrameUnsigned, exec_pushs]
  case v2FrameSigned => rw [exec_v2FrameSigned, exec_pushs]

end Sys2Proof.Proofs
end

section
/-! PROOFS. The family 30_encoding: decoder and encoder are inverse on command words, on the words of a PUSHS, on bytes of the wire and
on frames (R70 to R76, R83, R127), and what a pushed sequence stores (R154). -/

namespace Sys2Proof

/-! ### Command words (R70, R71, R73) -/

/-- The seven clauses of the opcode map. -/
theorem opcode_cases (op : Byte) :
    op = 0x00 ∨ op = 0x01 ∨ op = 0x02 ∨ op = 0x03 ∨ op = 0x04 ∨ op = 0x05 ∨ 6 ≤ op.toNat := by
  bv_omega

section
variable {w : Word}

theorem decodeCommand_nop (h : byteOf w 0 = 0x00) : decodeCommand w = .nop (byteOf w 1) := by simp [decodeCommand, h]

theorem decodeCommand_push (h : byteOf w 0 = 0x01) : decodeCommand w = .push (byteOf w 1) := by simp [decodeCommand, h]

theorem decodeCommand_validate (h : byteOf w 0 = 0x02) : decodeCommand w = .validate (byteOf w 1) := by simp [decodeCommand, h]

theorem decodeCommand_accept (h : byteOf w 0 = 0x03) : decodeCommand w = .accept (byteOf w 1) := by simp [decodeCommand, h]

theorem decodeCommand_reject (h : byteOf w 0 = 0x04) : decodeCommand w = .reject (byteOf w 1) := by simp [decodeCommand, h]

theorem decodeCommand_abort (h : byteOf w 0 = 0x05) : decodeCommand w = .abort (byteOf w 1) := by simp [decodeCommand, h]

theorem decodeCommand_reserved (h : 6 ≤ (byteOf w 0).toNat) : decodeCommand w = .reserved (byteOf w 0) (byteOf w 1) := by
  simp only [decodeCommand]
  split
  case h_7 => rfl
  all_goals omega

theorem commandWord_of_opcode {op : Byte} (h : byteOf w 0 = op) : commandWord op (byteOf w 1) = w := by
  rw [← h, commandWord_bytes]

end

/-- A command word is the encoding of what it decodes to, and that is well-formed. -/
theorem encode_decodeCommand (w : Word) :
    encode (decodeCommand w) = .command w ∧ (decodeCommand w).wellFormed = true := by
  rcases opcode_cases (byteOf w 0) with h | h | h | h | h | h | h
  · rw [decodeCommand_nop h]; exact ⟨congrArg _ (commandWord_of_opcode h), rfl⟩
  · rw [decodeCommand_push h]; exact ⟨congrArg _ (commandWord_of_opcode h), rfl⟩
  · rw [decodeCommand_validate h]; exact ⟨congrArg _ (commandWord_of_opcode h), rfl⟩
  · rw [decodeCommand_accept h]; exact ⟨congrArg _ (commandWord_of_opcode h), rfl⟩
  · rw [decodeCommand_reject h]; exact ⟨congrArg _ (commandWord_of_opcode h), rfl⟩
  · rw [decodeCommand_abort h]; exact ⟨congrArg _ (commandWord_of_opcode h), rfl⟩
  · rw [decodeCommand_reserved h]; exact ⟨congrArg _ (commandWord_bytes w), decide_eq_true h⟩

/-! ### The words of a PUSHS (R83) -/

theorem decodeCommand_eq_push {w : Word} {b : Byte} : decodeCommand w = .push b ↔ w = commandWord 0x01 b := by
  constructor
  · intro h
    have henc := (encode_decodeCommand w).1
    rw [h] at henc
    exact (PortUnit.command.inj henc).symm
  · rintro rfl
    rw [decodeCommand_push (byteOf_commandWord_zero _ _), byteOf_commandWord_one]

theorem commandWord_arg_inj {op b c : Byte} : commandWord op b = commandWord op c ↔ b = c := by
  refine ⟨fun h => ?_, congrArg _⟩
  simpa using congrArg (byteOf · 1) h

/-- A sequence of words has operands exactly when it is the PUSH words of these bytes. -/
theorem pushOperands_eq_some {ws : List Word} {bs : List Byte} :
    pushOperands ws = some bs ↔ ws = bs.map (commandWord 0x01) := by
  induction ws generalizing bs with
  | nil => cases bs <;> simp [pushOperands]
  | cons w ws ih =>
    simp only [pushOperands]
    split
    · next b hw =>
      obtain rfl := decodeCommand_eq_push.mp hw
      cases bs <;> simp [ih, commandWord_arg_inj, and_comm]
    · next hw =>
      cases bs with
      | nil => simp
      | cons c cs => simpa using fun hc => absurd (decodeCommand_eq_push.mpr hc) (hw c)

/-- A sequence of words decodes exactly when it is the PUSH words of at least one byte. -/
theorem decode_commands_eq_ok {ws : List Word} {i : Instr} :
    decode (.commands ws) = .ok i ↔ ∃ bs, bs ≠ [] ∧ ws = bs.map (commandWord 0x01) ∧ i = .pushs bs := by
  simp only [decode, ← pushOperands_eq_some]
  rcases h : pushOperands ws with _ | _ | ⟨b, bs⟩ <;> simp [eq_comm]

/-! ### Bytes of the wire (R153) -/

/-- A byte of the wire is the encoding of what it decodes to, and that is well-formed. -/
theorem encode_decodeWireByte (b : Byte) :
    encode (decodeWireByte b) = .wireByte b ∧ (decodeWireByte b).wellFormed = true := by
  unfold decodeWireByte
  split
  · next h => rw [versionOf_eq_some.mp h]; exact ⟨rfl, rfl⟩
  · next h => rw [versionOf_eq_some.mp h]; exact ⟨rfl, rfl⟩
  · next h => exact ⟨rfl, by simpa [Instr.wellFormed] using versionOf_eq_none.mp h⟩

theorem decodeWireByte_noise {b : Byte} (h : (Instr.noise b).wellFormed = true) : decodeWireByte b = .noise b := by
  have hnone : versionOf b = none := versionOf_eq_none.mpr (by simpa [Instr.wellFormed] using h)
  simp only [decodeWireByte, hnone]

/-! ### Slices of a buffer (R11) -/

@[simp] theorem slice_self (s : List Byte) (i : Nat) : slice s i i = [] := by simp [slice]

theorem slice_zero (s : List Byte) (k : Nat) : slice s 0 k = s.take k := by simp [slice]

/-- A slice starts with the byte at its first index. -/
theorem slice_eq_cons {s : List Byte} {i j : Nat} (hij : i < j) (hj : j ≤ s.length) :
    slice s i j = byteAt s i :: slice s (i + 1) j := by
  have hi : i < s.length := by omega
  rw [slice, slice, List.drop_eq_getElem_cons hi, show j - i = j - (i + 1) + 1 by omega, List.take_succ_cons]
  simp [byteAt, hi]

/-- A slice splits at any index inside it. -/
theorem slice_append_slice (s : List Byte) {i j k : Nat} (hij : i ≤ j) (hjk : j ≤ k) :
    slice s i j ++ slice s j k = slice s i k := by
  rw [slice, slice, slice, show k - i = (j - i) + (k - j) by omega, List.take_add, List.drop_drop, Nat.add_sub_cancel' hij]

/-- The slice of the part that stands after `a`. -/
theorem slice_append_mid (a b c : List Byte) : slice (a ++ b ++ c) a.length (a.length + b.length) = b := by
  simp [slice]

theorem byteAt_append_length_add (a b : List Byte) (i : Nat) : byteAt (a ++ b) (a.length + i) = byteAt b i := by
  rw [byteAt_append_right (Nat.le_add_right _ _), Nat.add_sub_cancel_left]

theorem byteAt_append_length (a b : List Byte) : byteAt (a ++ b) a.length = byteAt b 0 :=
  byteAt_append_length_add a b 0

/-! ### The fields of a header (R121, R122) -/

theorem byteAt_slice_zero {s : List Byte} {i k : Nat} (h : i < k) : byteAt (slice s 0 k) i = byteAt s i := by
  rw [slice_zero, byteAt_take h]

/-- A header's fields are those at the start of the buffer. -/
theorem headerFields_slice (v : Version) (buf : List Byte) :
    headerFields v (slice buf 0 v.hdrLen) = headerFields v buf := by
  cases v <;> simp [headerFields, Version.hdrLen, Config.hdrV1, Config.hdrV2, byteAt_slice_zero]

/-! ### FrameDecode (R127) -/

/-- The record of a buffer that starts with a frame of a version. -/
def recordAt (v : Version) (buf : List Byte) : FrameRecord := recordOf v (headerFields v buf) buf

/-- A header decodes exactly when the buffer starts with a magic byte and holds the whole header. -/
theorem headerDecode_eq_ok {buf : List Byte} {h : Header} {v : Version} :
    headerDecode buf = .ok (h, v) ↔ byteAt buf 0 = v.magic ∧ v.hdrLen ≤ buf.length ∧ h = headerFields v buf := by
  have hb := v.hdrLen_bounds
  rw [← versionOf_eq_some]
  unfold headerDecode
  split
  · simp only [reduceCtorEq, false_iff]
    omega
  · split
    · next hv => simp [hv]
    · next u hv =>
      rw [hv, Option.some.injEq]
      split
      · simp only [reduceCtorEq, false_iff]
        rintro ⟨rfl, hl, -⟩
        omega
      · simp only [headerFields_slice, Except.ok.injEq, Prod.mk.injEq]
        constructor
        · rintro ⟨rfl, rfl⟩
          exact ⟨rfl, by omega, rfl⟩
        · rintro ⟨rfl, -, rfl⟩
          exact ⟨rfl, rfl⟩

/-- Once the header has decoded, the buffer's length alone decides whether the frame does (R127). -/
theorem frameDecode_of_header {v : Version} {buf : List Byte} (hm : byteAt buf 0 = v.magic) (hl : v.hdrLen ≤ buf.length) :
    frameDecode buf =
      if buf.length < frameLength v (recordAt v buf).len (recordAt v buf).incompat then .error .incomplete
      else .ok (recordAt v buf, frameLength v (recordAt v buf).len (recordAt v buf).incompat) := by
  have hb := v.hdrLen_bounds
  unfold frameDecode
  rw [if_neg (by omega), headerDecode_eq_ok.mpr ⟨hm, hl, rfl⟩]
  rfl

/-- A frame decodes only where its header does. -/
theorem headerDecode_of_frameDecode {buf : List Byte} {p : FrameRecord × Nat} (h : frameDecode buf = .ok p) :
    ∃ hv, headerDecode buf = .ok hv := by
  unfold frameDecode at h
  split at h
  · cases h
  · split at h
    · cases h
    · cases h
    · next hh => exact ⟨_, hh⟩

/-- A frame decodes exactly when the buffer starts with a magic byte, holds the header, and holds the whole frame. -/
theorem frameDecode_eq_ok {buf : List Byte} {r : FrameRecord} {k : Nat} :
    frameDecode buf = .ok (r, k) ↔
      ∃ v : Version, byteAt buf 0 = v.magic ∧ v.hdrLen ≤ buf.length ∧ r = recordAt v buf ∧
        k = frameLength v r.len r.incompat ∧ k ≤ buf.length := by
  constructor
  · intro h
    obtain ⟨⟨_, v⟩, hh⟩ := headerDecode_of_frameDecode h
    obtain ⟨hm, hl, -⟩ := headerDecode_eq_ok.mp hh
    rw [frameDecode_of_header hm hl] at h
    split at h
    · cases h
    · cases h
      exact ⟨v, hm, hl, rfl, rfl, by omega⟩
  · rintro ⟨v, hm, hl, rfl, rfl, hk⟩
    rw [frameDecode_of_header hm hl, if_neg (by omega)]

/-! ### A decoded record is written back as the bytes it was read from -/

@[simp] theorem byteOf_zeroExtend (b : Byte) : byteOf (b.zeroExtend 24) 0 = b := by
  apply BitVec.eq_of_getLsbD_eq
  intro i hi
  rw [getLsbD_byteOf]
  simp [hi, show i < 24 by omega]

theorem headerBytes_recordAt {v : Version} {buf : List Byte} (hm : byteAt buf 0 = v.magic) (hl : v.hdrLen ≤ buf.length) :
    (recordAt v buf).headerBytes = slice buf 0 v.hdrLen := by
  cases v
  case v1 =>
    have hl : 6 ≤ buf.length := hl
    simp (disch := omega) [recordAt, recordOf, headerFields, FrameRecord.headerBytes, Version.hdrLen, Config.hdrV1,
      slice_eq_cons, hm, Version.magic]
  case v2 =>
    have hl : 10 ≤ buf.length := hl
    simp (disch := omega) [recordAt, recordOf, headerFields, FrameRecord.headerBytes, Version.hdrLen, Config.hdrV2,
      slice_eq_cons, hm, Version.magic, byteOf_le24]

theorem checksumBytes_eq_slice {buf : List Byte} {t : Nat} (h : t + 2 ≤ buf.length) :
    [byteOf (le16 (byteAt buf t) (byteAt buf (t + 1))) 0, byteOf (le16 (byteAt buf t) (byteAt buf (t + 1))) 1] =
      slice buf t (t + 2) := by
  simp (disch := omega) [slice_eq_cons]

theorem trailerBytes_trailerAt {buf : List Byte} {t : Nat} (h : t + 13 ≤ buf.length) :
    (trailerAt buf t).bytes = slice buf t (t + 13) := by
  simp (disch := omega) [trailerAt, Trailer.bytes, le6Bytes_le48, slice_eq_cons]

/-- The four parts of a frame on the wire, the trailer empty where there is none (R74 to R76). -/
theorem FrameRecord.wireBytes_eq (r : FrameRecord) :
    r.wireBytes =
      r.headerBytes ++ r.payload ++ [byteOf r.checksum 0, byteOf r.checksum 1] ++ r.sig.elim [] Trailer.bytes := by
  unfold FrameRecord.wireBytes
  cases r.sig <;> rfl

/-- The relations between the fields of a well-formed record (R120, R130). -/
theorem FrameRecord.wellFormed_iff {r : FrameRecord} :
    r.wellFormed = true ↔
      r.payload.length = r.len.toNat ∧ r.sig.isSome = signedOf r.version r.incompat ∧
        (r.version = .v1 → r.incompat = 0 ∧ r.compat = 0 ∧ r.msgid.toNat ≤ 255) := by
  cases hv : r.version
  case v1 => simp [FrameRecord.wellFormed, FrameRecord.fitsV1, signedOf, hv]; tauto
  case v2 => simp [FrameRecord.wellFormed, FrameRecord.fitsV2, signedOf, hv]

section
variable (v : Version) (buf : List Byte)

@[simp] theorem recordAt_version : (recordAt v buf).version = v := rfl

@[simp] theorem recordAt_len : (recordAt v buf).len = byteAt buf 1 := by
  cases v <;> simp [recordAt, recordOf, headerFields]

theorem recordAt_payload : (recordAt v buf).payload = slice buf v.hdrLen (v.hdrLen + (byteAt buf 1).toNat) := by
  cases v <;> rfl

theorem recordAt_checksum :
    (recordAt v buf).checksum =
      le16 (byteAt buf (v.hdrLen + (byteAt buf 1).toNat)) (byteAt buf (v.hdrLen + (byteAt buf 1).toNat + 1)) := by
  cases v <;> rfl

theorem recordAt_sig :
    (recordAt v buf).sig =
      if signedOf v (recordAt v buf).incompat then some (trailerAt buf (v.hdrLen + (byteAt buf 1).toNat + 2)) else none := by
  cases v <;> rfl

theorem recordAt_frameLength :
    frameLength v (recordAt v buf).len (recordAt v buf).incompat =
      v.hdrLen + (byteAt buf 1).toNat + 2 + if signedOf v (recordAt v buf).incompat then 13 else 0 := by
  rw [recordAt_len]; rfl

end

/-- The bytes of a decoded record are the bytes of its frame in the buffer. -/
theorem wireBytes_recordAt {v : Version} {buf : List Byte} (hm : byteAt buf 0 = v.magic)
    (hk : frameLength v (recordAt v buf).len (recordAt v buf).incompat ≤ buf.length) :
    (recordAt v buf).wireBytes = buf.take (frameLength v (recordAt v buf).len (recordAt v buf).incompat) := by
  rw [recordAt_frameLength] at hk ⊢
  have hhead : (recordAt v buf).headerBytes = slice buf 0 v.hdrLen := headerBytes_recordAt hm (by omega)
  have hck := checksumBytes_eq_slice (buf := buf) (t := v.hdrLen + (byteAt buf 1).toNat) (by omega)
  rw [FrameRecord.wireBytes_eq, hhead, recordAt_payload, recordAt_checksum, hck, recordAt_sig, ← slice_zero]
  split
  · next hs =>
    rw [if_pos hs] at hk
    rw [Option.elim_some, trailerBytes_trailerAt hk]
    simp (disch := omega) only [slice_append_slice]
  · simp (disch := omega) only [Option.elim_none, slice_append_slice, List.append_nil, Nat.add_zero]

/-- A decoded record's fields agree (R120). -/
theorem wellFormed_recordAt {v : Version} {buf : List Byte}
    (hk : frameLength v (recordAt v buf).len (recordAt v buf).incompat ≤ buf.length) :
    (recordAt v buf).wellFormed = true := by
  rw [recordAt_frameLength] at hk
  refine FrameRecord.wellFormed_iff.mpr ⟨?_, ?_, ?_⟩
  · rw [recordAt_payload, length_slice, recordAt_len]
    omega
  · rw [recordAt_sig, recordAt_version]
    split <;> simp [*]
  · intro hv
    obtain rfl : v = .v1 := hv
    have hmsgid : ((byteAt buf 5).zeroExtend 24).toNat ≤ 255 := by bv_omega
    exact ⟨rfl, rfl, hmsgid⟩

/-- What FrameDecode reads is a well-formed record, and its bytes are the bytes consumed (R120, R127). -/
theorem frameDecode_sound {buf : List Byte} {r : FrameRecord} {k : Nat} (h : frameDecode buf = .ok (r, k)) :
    r.wellFormed = true ∧ r.wireBytes = buf.take k := by
  obtain ⟨v, hm, -, rfl, rfl, hk⟩ := frameDecode_eq_ok.mp h
  exact ⟨wellFormed_recordAt hk, wireBytes_recordAt hm hk⟩

/-! ### The bytes of a well-formed record decode to the record -/

/-- The length on the wire that `len` and `incompat` give (R126) is the number of bytes written. -/
theorem FrameRecord.frameLength_eq_length {r : FrameRecord} (h : r.wellFormed = true) :
    frameLength r.version r.len r.incompat = r.wireBytes.length := by
  obtain ⟨hlen, hsig, -⟩ := FrameRecord.wellFormed_iff.mp h
  rw [r.length_wireBytes, hlen, hsig]
  rfl

/-- A 24-bit value below 256 is its lowest byte. -/
theorem zeroExtend_byteOf_zero {v : BitVec 24} (h : v.toNat ≤ 255) : (byteOf v 0).zeroExtend 24 = v := by
  apply BitVec.eq_of_toNat_eq
  simp [byteOf]
  omega

/-- The header of a well-formed record's bytes holds its fields (R121, R122). -/
theorem headerFields_wireBytes_append {r : FrameRecord} (h : r.wellFormed = true) (rest : List Byte) :
    headerFields r.version (r.wireBytes ++ rest) =
      { len := r.len.toNat, incompat := r.incompat, compat := r.compat, seq := r.seq, sys := r.sys, comp := r.comp,
        msgid := r.msgid } := by
  obtain ⟨-, -, hv1⟩ := FrameRecord.wellFormed_iff.mp h
  rw [r.wireBytes_eq]
  cases hv : r.version
  case v1 =>
    obtain ⟨hincompat, hcompat, hmsgid⟩ := hv1 hv
    simp [headerFields, FrameRecord.headerBytes, hv, hincompat, hcompat, zeroExtend_byteOf_zero hmsgid]
  case v2 => simp [headerFields, FrameRecord.headerBytes, hv]

/-- The payload stands after the header. -/
theorem slice_wireBytes_payload (r : FrameRecord) (rest : List Byte) :
    slice (r.wireBytes ++ rest) r.version.hdrLen (r.version.hdrLen + r.payload.length) = r.payload := by
  rw [r.wireBytes_eq, ← r.length_headerBytes, List.append_assoc, List.append_assoc]
  exact slice_append_mid _ _ _

/-- The checksum stands after the payload, low byte first. -/
theorem le16_wireBytes_checksum (r : FrameRecord) (rest : List Byte) :
    le16 (byteAt (r.wireBytes ++ rest) (r.version.hdrLen + r.payload.length))
      (byteAt (r.wireBytes ++ rest) (r.version.hdrLen + r.payload.length + 1)) = r.checksum := by
  rw [r.wireBytes_eq, ← r.length_headerBytes, ← List.length_append, List.append_assoc, List.append_assoc,
    byteAt_append_length, byteAt_append_length_add]
  exact le16_bytes _

/-- A trailer is read from the bytes at its offset, whatever stands before it. -/
theorem trailerAt_append (pre s : List Byte) : trailerAt (pre ++ s) pre.length = trailerAt s 0 := by
  simp [trailerAt, byteAt_append_length_add, byteAt_append_length]

theorem byteAt_toList_append {n i : Nat} (v : Vector Byte n) (rest : List Byte) (h : i < n) :
    byteAt (v.toList ++ rest) i = v[i] := by
  rw [byteAt_append_left (by simpa using h)]
  simp [byteAt, h]

/-- The bytes of a trailer hold its fields, whatever follows them (R76). -/
theorem trailerAt_bytes_append (t : Trailer) (rest : List Byte) : trailerAt (t.bytes ++ rest) 0 = t := by
  have hsig : #v[byteAt (t.signature.toList ++ rest) 0, byteAt (t.signature.toList ++ rest) 1,
      byteAt (t.signature.toList ++ rest) 2, byteAt (t.signature.toList ++ rest) 3,
      byteAt (t.signature.toList ++ rest) 4, byteAt (t.signature.toList ++ rest) 5] = t.signature := by
    ext i hi
    interval_cases i <;> simp [byteAt_toList_append]
  simp [trailerAt, Trailer.bytes, le6Bytes, hsig]

/-- The trailer, where there is one, stands after the checksum. -/
theorem trailerAt_wireBytes {r : FrameRecord} {t : Trailer} (h : r.sig = some t) (rest : List Byte) :
    trailerAt (r.wireBytes ++ rest) (r.version.hdrLen + r.payload.length + 2) = t := by
  have hpos : r.version.hdrLen + r.payload.length + 2 =
      (r.headerBytes ++ r.payload ++ [byteOf r.checksum 0, byteOf r.checksum 1]).length := by simp; omega
  rw [r.wireBytes_eq, hpos, List.append_assoc, trailerAt_append, h]
  exact trailerAt_bytes_append t rest

/-- The record read from the bytes of a well-formed record, whatever follows them, is that record. -/
theorem recordAt_wireBytes_append {r : FrameRecord} (h : r.wellFormed = true) (rest : List Byte) :
    recordAt r.version (r.wireBytes ++ rest) = r := by
  obtain ⟨hlen, hsigned, -⟩ := FrameRecord.wellFormed_iff.mp h
  have hsig : (if signedOf r.version r.incompat then
      some (trailerAt (r.wireBytes ++ rest) (r.version.hdrLen + r.payload.length + 2)) else none) = r.sig := by
    rw [← hsigned]
    cases ht : r.sig with
    | none => rfl
    | some t => exact congrArg some (trailerAt_wireBytes ht rest)
  rw [recordAt, headerFields_wireBytes_append h]
  simp only [recordOf, Config.ckLen, ← hlen, slice_wireBytes_payload, le16_wireBytes_checksum, hsig]
  simp [hlen]

/-- The bytes of a well-formed record, whatever follows them, decode to the record (R127). -/
theorem frameDecode_wireBytes_append {r : FrameRecord} (h : r.wellFormed = true) (rest : List Byte) :
    frameDecode (r.wireBytes ++ rest) = .ok (r, r.wireBytes.length) := by
  refine frameDecode_eq_ok.mpr ⟨r.version, ?_, ?_, (recordAt_wireBytes_append h rest).symm,
    (FrameRecord.frameLength_eq_length h).symm, by simp⟩
  · have hb := FrameRecord.wireBytes_bounds h
    rw [byteAt_append_left (by omega), r.byteAt_wireBytes_zero]
  · have hl := r.length_wireBytes
    rw [List.length_append]
    omega

/-! ### Frame units (R74 to R76) -/

/-- The frame row of a record is encoded as the record's bytes. -/
theorem encode_frameInstr (r : FrameRecord) : encode (frameInstr r) = .wireFrame r.wireBytes := by
  unfold frameInstr
  split <;> rfl

/-- The frame row of a well-formed record is a well-formed instruction. -/
theorem wellFormed_frameInstr {r : FrameRecord} (h : r.wellFormed = true) : (frameInstr r).wellFormed = true := by
  unfold frameInstr
  split <;> simp [Instr.wellFormed, *]

/-- A frame unit decodes exactly when it is the bytes of a well-formed record and nothing more. -/
theorem decode_wireFrame_eq_ok {bs : List Byte} {i : Instr} :
    decode (.wireFrame bs) = .ok i ↔ ∃ r : FrameRecord, r.wellFormed = true ∧ bs = r.wireBytes ∧ i = frameInstr r := by
  constructor
  · intro h
    simp only [decode] at h
    split at h
    · cases h
    · cases h
    · next r k hr =>
      obtain ⟨hwf, hbytes⟩ := frameDecode_sound hr
      split at h
      · next hk =>
        cases h
        exact ⟨r, hwf, by rw [hbytes, hk, List.take_length], rfl⟩
      · cases h
  · rintro ⟨r, hwf, rfl, rfl⟩
    have hr := frameDecode_wireBytes_append hwf []
    rw [List.append_nil] at hr
    simp only [decode, hr, if_pos]

/-! ### Decoder and encoder are inverse -/

/-- The decoder reads back what the encoder wrote. -/
theorem decode_encode {i : Instr} (h : i.wellFormed = true) : decode (encode i) = .ok i := by
  cases i with
  | nop a => simp [encode, decode, decodeCommand_nop]
  | push b => simp [encode, decode, decodeCommand_push]
  | validate x => simp [encode, decode, decodeCommand_validate]
  | accept a => simp [encode, decode, decodeCommand_accept]
  | reject a => simp [encode, decode, decodeCommand_reject]
  | abort a => simp [encode, decode, decodeCommand_abort]
  | reserved op a =>
    have hop : 6 ≤ op.toNat := of_decide_eq_true h
    simp [encode, decode, decodeCommand_reserved, hop]
  | pushs bs => exact decode_commands_eq_ok.mpr ⟨bs, by simpa [Instr.wellFormed] using h, rfl, rfl⟩
  | sofV1 => rfl
  | sofV2 => rfl
  | noise b => exact congrArg Except.ok (decodeWireByte_noise h)
  | v1Frame r =>
    simp only [Instr.wellFormed, Bool.and_eq_true, beq_iff_eq] at h
    obtain ⟨hwf, hv⟩ := h
    exact decode_wireFrame_eq_ok.mpr ⟨r, hwf, rfl, by simp [frameInstr, hv]⟩
  | v2FrameUnsigned r =>
    simp only [Instr.wellFormed, Bool.and_eq_true, beq_iff_eq, Option.isNone_iff_eq_none] at h
    obtain ⟨⟨hwf, hv⟩, hsig⟩ := h
    exact decode_wireFrame_eq_ok.mpr ⟨r, hwf, rfl, by simp [frameInstr, hv, hsig]⟩
  | v2FrameSigned r =>
    simp only [Instr.wellFormed, Bool.and_eq_true, beq_iff_eq, Option.isSome_iff_exists] at h
    obtain ⟨⟨hwf, hv⟩, t, hsig⟩ := h
    exact decode_wireFrame_eq_ok.mpr ⟨r, hwf, rfl, by simp [frameInstr, hv, hsig]⟩

/-- The encoder gives back the very unit that decoded, from a well-formed instruction. -/
theorem encode_of_decode {u : PortUnit} {i : Instr} (h : decode u = .ok i) : encode i = u ∧ i.wellFormed = true := by
  cases u with
  | command w =>
    cases h
    exact encode_decodeCommand w
  | commands ws =>
    obtain ⟨bs, hne, rfl, rfl⟩ := decode_commands_eq_ok.mp h
    exact ⟨rfl, by simpa [Instr.wellFormed] using hne⟩
  | wireByte b =>
    cases h
    exact encode_decodeWireByte b
  | wireFrame bs =>
    obtain ⟨r, hwf, rfl, rfl⟩ := decode_wireFrame_eq_ok.mp h
    exact ⟨encode_frameInstr r, wellFormed_frameInstr hwf⟩

end Sys2Proof

namespace Sys2Proof.Machine

/-! ### What a pushed sequence keeps and where it stores (R83, R154, R160) -/

/-- The index of RAW at which the next byte offered is stored, where one is: 0 while the receiver seeks, the count inside a
candidate. -/
def State.storeIndex (s : State) : Nat := if s.rxState = .seeking then 0 else s.n

/-- From `s` to `t` at most `k` bytes are stored, one after the other from the store index of `s` on. -/
structure State.StoresUpTo (s t : State) (k : Nat) : Prop where
  le_index : s.storeIndex ≤ t.storeIndex
  index_le : t.storeIndex ≤ s.storeIndex + k
  read_eq : ∀ j, j < s.storeIndex ∨ s.storeIndex + k ≤ j → t.raw.read j = s.raw.read j

namespace State.StoresUpTo

variable {s t u : State} {k l : Nat}

/-- Where nothing is stored and the store index stays, any number of bytes bounds what is stored. -/
theorem of_eq (hi : t.storeIndex = s.storeIndex) (hr : t.raw = s.raw) : s.StoresUpTo t k :=
  ⟨hi.ge, by omega, fun _ _ => by rw [hr]⟩

theorem report (h : s.StoresUpTo t k) (c : Code) : s.StoresUpTo (t.report c) k := ⟨h.le_index, h.index_le, h.read_eq⟩

theorem trans (h : s.StoresUpTo t k) (h' : t.StoresUpTo u l) : s.StoresUpTo u (k + l) := by
  obtain ⟨hle, hge, hread⟩ := h
  obtain ⟨hle', hge', hread'⟩ := h'
  refine ⟨by omega, by omega, fun j hj => ?_⟩
  rw [hread' j (by omega), hread j (by omega)]

/-- Inside a candidate, the byte stored at the count and counted is the one byte stored. -/
theorem of_store {b : Byte} (h : s.rxState ≠ .seeking) (ht : t.rxState ≠ .seeking) (hn : t.n = s.n + 1)
    (hr : t.raw = (s.store b).raw) : s.StoresUpTo t 1 := by
  have hs : s.storeIndex = s.n := if_neg h
  have hu : t.storeIndex = s.n + 1 := (if_neg ht).trans hn
  refine ⟨by omega, by omega, fun j hj => ?_⟩
  rw [hr, State.store_raw]
  split
  · exact Memory.read_write_of_ne s.raw b (by omega)
  · rfl

end State.StoresUpTo

/-- Inside a candidate the receiver does not go back to seeking by itself (R151). -/
theorem nextRx_ne_seeking {s : State} (h : s.rxState ≠ .seeking) : s.nextRx ≠ .seeking := by
  unfold State.nextRx
  split <;> (repeat' split) <;> simp [*]

/-- Consume stores at most one byte (R153, R154). -/
theorem consume_storesUpTo (s : State) (b : Byte) : s.StoresUpTo (s.consume b) 1 := by
  rcases consume_cases s b with ⟨hs, v, -, h⟩ | ⟨-, -, h⟩ | ⟨hs, h⟩ | ⟨hs, h⟩ | ⟨-, h⟩ <;> rw [h]
  · have h0 : s.storeIndex = 0 := if_pos hs
    have h1 : (s.openCandidate v b).storeIndex = 1 := rfl
    exact ⟨by omega, by omega, fun j hj => Memory.read_write_of_ne s.raw b (by omega)⟩
  · exact .of_eq rfl rfl
  · have h0 : s.rxState ≠ .seeking := by rcases hs with hs | hs <;> simp [hs]
    exact .of_store h0 (nextRx_ne_seeking h0) rfl rfl
  · have h0 : s.rxState ≠ .seeking := by rcases hs with hs | hs <;> simp [hs]
    exact .of_store h0 (nextRx_ne_seeking h0) rfl rfl
  · exact .of_eq rfl rfl

theorem push_storesUpTo (s : State) (b : Byte) : s.StoresUpTo (s.push b) 1 := by
  by_cases h : s.rxState = .emit
  · rw [push_emit h]
    exact .of_eq rfl rfl
  · rw [push_of_ne_emit h]
    exact (consume_storesUpTo s b).report _

/-- Pushing a sequence stores at most one byte for each byte of it. -/
theorem pushAll_storesUpTo (s : State) (bs : List Byte) : s.StoresUpTo (s.pushAll bs) bs.length := by
  induction bs generalizing s with
  | nil => exact .of_eq rfl rfl
  | cons b bs ih =>
    rw [pushAll_cons, List.length_cons, Nat.add_comm]
    exact (push_storesUpTo s b).trans (ih (s.push b))

/-- While a frame is held, pushing a sequence changes at most the status (R160). -/
theorem pushAll_emit {s : State} (h : s.rxState = .emit) (bs : List Byte) :
    ∃ c, s.pushAll bs = { s with status := c } := by
  induction bs generalizing s with
  | nil => exact ⟨s.status, rfl⟩
  | cons b bs ih =>
    obtain ⟨c, hc⟩ := ih (s := s.report .notReady) h
    exact ⟨c, by rw [pushAll_cons, push_emit h, hc]; rfl⟩

/-! ### PUSH keeps the codes legal (R155, R160) -/

theorem nextRx_unused {s : State} (h : s.rxState.unused = false) : s.nextRx.unused = false := by
  unfold State.nextRx
  split <;> (repeat' split) <;> simp_all [RxState.unused]

theorem consume_unused {s : State} (h : s.rxState.unused = false) (b : Byte) : (s.consume b).rxState.unused = false := by
  rcases consume_cases s b with ⟨-, v, -, hc⟩ | ⟨-, -, hc⟩ | ⟨-, hc⟩ | ⟨-, hc⟩ | ⟨-, hc⟩ <;> rw [hc]
  · rfl
  · exact h
  · exact nextRx_unused h
  · exact nextRx_unused h
  · exact h

theorem push_codesLegal {s : State} (h : s.codesLegal) (b : Byte) : (s.push b).codesLegal := by
  obtain ⟨hrx, -⟩ := codesLegal_iff.mp h
  by_cases he : s.rxState = .emit
  · rw [push_emit he]
    exact codesLegal_iff.mpr ⟨hrx, rfl⟩
  · rw [push_of_ne_emit he]
    exact codesLegal_iff.mpr ⟨consume_unused hrx b, by split <;> rfl⟩

theorem pushAll_codesLegal {s : State} (h : s.codesLegal) (bs : List Byte) : (s.pushAll bs).codesLegal := by
  induction bs generalizing s with
  | nil => exact h
  | cons b bs ih => exact ih (push_codesLegal h b)

/-- PUSHS and the frame units are the guarded PUSH of the bytes they offer. -/
theorem exec_of_offered {i : Instr} {bytes : List Byte}
    (h : i = .pushs bytes ∨ ∃ r : FrameRecord, bytes = r.wireBytes ∧
      (i = .v1Frame r ∨ i = .v2FrameUnsigned r ∨ i = .v2FrameSigned r))
    (s : State) : exec i s = guarded s (s.pushAll bytes) := by
  obtain rfl | ⟨r, rfl, rfl | rfl | rfl⟩ := h <;> rfl

end Sys2Proof.Machine

namespace Sys2Proof.Proofs

open Sys2Proof.Machine

/-- Settles O1, instruction by instruction: a command word is its two bytes, the words of a PUSHS are the PUSH words of its bytes, a
well-formed record is read back from its bytes. -/
theorem decodeOfEncodeIsTheInstruction : Obligations.DecodeOfEncodeIsTheInstruction :=
  fun _ => decode_encode

/-- Settles O2, format by format: a unit that decodes is the encoding of what it decodes to. -/
theorem encodeOfDecodeIsTheUnit : Obligations.EncodeOfDecodeIsTheUnit :=
  fun _ _ => encode_of_decode

/-- Settles O31: each byte offered stores one byte of RAW at most, each at the next index; while a frame is held none does. -/
theorem pushedSequenceStoresOnlyAtItsIndexes : Obligations.PushedSequenceStoresOnlyAtItsIndexes := by
  intro s t i bytes hi hexec
  rw [exec_of_offered hi, guarded_eq_next] at hexec
  obtain ⟨-, rfl⟩ := hexec
  refine ⟨pushAll_pq s bytes, pushAll_port s bytes, ?held, (pushAll_storesUpTo s bytes).read_eq⟩
  case held =>
    intro he
    obtain ⟨c, hc⟩ := pushAll_emit he bytes
    rw [hc]
    exact ⟨rfl, rfl, rfl, rfl, rfl⟩

/-- Settles O3: the low byte of a word chooses the instruction, the high byte is its operand. -/
theorem commandWordDecodesByItsOpcode : Obligations.CommandWordDecodesByItsOpcode := by
  intro w
  exact ⟨fun h => congrArg _ (decodeCommand_nop h), fun h => congrArg _ (decodeCommand_push h),
    fun h => congrArg _ (decodeCommand_validate h), fun h => congrArg _ (decodeCommand_accept h),
    fun h => congrArg _ (decodeCommand_reject h), fun h => congrArg _ (decodeCommand_abort h),
    fun h => congrArg _ (decodeCommand_reserved h)⟩

/-- Settles O4: each unit is the encoding of the instruction it stands for, and so decodes to it. -/
theorem specWordsDecode : Obligations.SpecWordsDecode :=
  ⟨decode_encode (i := .nop 0) rfl, decode_encode (i := .push 0xFE) rfl, decode_encode (i := .validate 0x32) rfl,
    decode_encode (i := .accept 0) rfl, decode_encode (i := .reject 0) rfl, decode_encode (i := .abort 0) rfl,
    decode_encode (i := .reserved 0x06 0x12) rfl, decode_encode (i := .pushs [0x00, 0x55, 0xFF]) rfl,
    decode_encode (i := .sofV1) rfl, decode_encode (i := .sofV2) rfl, decode_encode (i := .noise 0x55) rfl,
    decode_encode (i := .v1Frame
      { version := .v1, len := 0, incompat := 0, compat := 0, seq := 255, sys := 9, comp := 8, msgid := 7, payload := [],
        checksum := 0x9F02, sig := none }) rfl⟩

/-- Settles O5: the assembler evaluates each line to the words the spec writes for it. -/
theorem hostSyntaxAssembles : Obligations.HostSyntaxAssembles := by
  unfold Obligations.HostSyntaxAssembles
  decide

/-- Settles O25: PUSH keeps the codes legal, so that the rest of the sequence completes too. -/
theorem pushsIsThePushOfEachByte : Obligations.PushsIsThePushOfEachByte := by
  intro s b bs hs
  have hpushs : exec (.pushs (b :: bs)) s = .next ((s.push b).pushAll bs) := guarded_of_codesLegal hs _
  have ht : (s.push b).codesLegal := push_codesLegal hs b
  refine ⟨⟨s.push b, guarded_of_codesLegal hs _, ht, ?split⟩, _, hpushs, pushAll_codesLegal ht bs⟩
  case split =>
    rw [hpushs]
    split
    · next hbs => rw [hbs, pushAll_nil]
    · exact (guarded_of_codesLegal ht _).symm

end Sys2Proof.Proofs
end

section
/-! PROOFS. The family 40_checksum: the three forms of CrcAccumulate and the CRC of a sequence in pieces (R101, R102, R108). -/

namespace Sys2Proof.Machine

/-! ### The loop on a byte and on the bits above it (R101, R108) -/

/-- A round on a CRC whose bit 0 is clear only shifts. -/
theorem crcRound_of_bit_clear {c : Word} (h : c.getLsbD 0 = false) : crcRound c = c >>> 1 :=
  if_neg (by rw [h]; decide)

/-- While the bits shifted out are clear, the loop only shifts. -/
theorem crcRounds_of_bits_clear {k : Nat} {c : Word} (h : ∀ i, i < k → c.getLsbD i = false) :
    Nat.repeat crcRound k c = c >>> k := by
  induction k with
  | zero => simp [Nat.repeat]
  | succ k ih =>
    have hbit : (c >>> k).getLsbD 0 = false := by simpa using h k (by omega)
    calc Nat.repeat crcRound (k + 1) c
      _ = crcRound (c >>> k) := congrArg crcRound (ih fun i hi => h i (by omega))
      _ = c >>> k >>> 1 := crcRound_of_bit_clear hbit
      _ = c >>> (k + 1) := (BitVec.shiftRight_add c k 1).symm

/-- A word is its high byte in place and its low byte. -/
theorem word_eq_high_xor_low (c : Word) : c = (c >>> 8) <<< 8 ^^^ (c.setWidth 8).zeroExtend 16 := by
  apply BitVec.eq_of_getLsbD_eq
  intro i hi
  by_cases h : i < 8
  · simp [h, hi]
  · simp [h, hi, show 8 + (i - 8) = i by omega]

/-- The table form is the loop: eight rounds shift the high byte down, and are TBL on the low byte. -/
theorem crcAccumulateTable_eq (crc : Word) (b : Byte) : crcAccumulateTable crc b = crcAccumulate crc b := by
  have hsplit : crc ^^^ b.zeroExtend 16 = (crc >>> 8) <<< 8 ^^^ (crc.setWidth 8 ^^^ b).zeroExtend 16 := by
    conv_lhs => rw [word_eq_high_xor_low crc]
    rw [BitVec.xor_assoc]
    exact congrArg _ BitVec.setWidth_xor.symm
  have hhigh : Nat.repeat crcRound 8 ((crc >>> 8) <<< 8) = crc >>> 8 := by
    rw [crcRounds_of_bits_clear fun i hi => by simp [hi]]
    apply BitVec.eq_of_getLsbD_eq
    intro i hi
    by_cases h : 8 + i < 16
    · simp [h]
    · simp [h, BitVec.getLsbD_of_ge crc (8 + i) (by omega)]
  rw [crcAccumulate, hsplit, crcRounds_xor, hhigh]
  rfl

/-- The nibble form, too, is the high byte shifted down and a value that only the low byte decides. -/
theorem crcAccumulateNibble_eq_high_xor (crc : Word) (b : Byte) :
    crcAccumulateNibble crc b = crc >>> 8 ^^^ crcAccumulateNibble 0 (crc.setWidth 8 ^^^ b) := by
  simp [crcAccumulateNibble, BitVec.xor_comm b, BitVec.xor_assoc]

/-- From CRC 0 the nibble form gives TBL, for each of the 256 bytes. -/
theorem crcAccumulateNibble_zero (x : Byte) : crcAccumulateNibble 0 x = crcTable x := by
  revert x
  decide +kernel

theorem crcAccumulateNibble_eq (crc : Word) (b : Byte) : crcAccumulateNibble crc b = crcAccumulate crc b := by
  rw [← crcAccumulateTable_eq, crcAccumulateNibble_eq_high_xor, crcAccumulateNibble_zero, crcAccumulateTable]

/-! ### A byte changed in a sequence (R107) -/

/-- A CRC carries on over the rest of a sequence (R102). -/
theorem crcCompute_append (a c : List Byte) : crcCompute (a ++ c) = crcFold (crcCompute a) c := crcFold_append _ a c

/-- A body with one byte changed has another checksum: the CRCs differ from that byte on. -/
theorem checksumWith_set_ne {xorOut : Word} {body : List Byte} {x b : Byte} {i : Nat} (hi : i < body.length)
    (hb : b ≠ byteAt body i) : checksumWith xorOut (body.set i b) x ≠ checksumWith xorOut body x := by
  intro h
  have hbody : body = body.take i ++ byteAt body i :: body.drop (i + 1) := by
    simp [byteAt, hi, List.getElem_cons_drop]
  have hset : body.set i b = body.take i ++ b :: body.drop (i + 1) := by
    rw [List.set_eq_take_append_cons_drop, if_pos hi]
  have hcrc : crcCompute (body.set i b) = crcCompute body := crcFinish_injective h
  rw [hset, crcCompute_append] at hcrc
  conv_rhs at hcrc => rw [hbody, crcCompute_append]
  exact hb (crcAccumulate_right_injective (crcFold_injective hcrc))

/-- A byte with one bit flipped is another byte. -/
theorem flipBit_ne {b : Byte} {j : Nat} (hj : j < 8) : b ^^^ ((1 : Byte) <<< j) ≠ b := by
  intro h
  have hbit := congrArg (·.getLsbD j) h
  simp [hj] at hbit

end Sys2Proof.Machine

namespace Sys2Proof.Proofs

open Sys2Proof.Machine

/-- Settles O49: both forms are the high byte shifted down and a value of the low byte alone, by the loop's linearity. -/
theorem crcFormsAgree : Obligations.CrcFormsAgree :=
  fun crc b => ⟨crcAccumulateTable_eq crc b, crcAccumulateNibble_eq crc b⟩

/-- Settles O50: a CRC is a fold; the worked values are evaluated. -/
theorem crcCanBeResumed : Obligations.CrcCanBeResumed := by
  refine ⟨crcCompute_append, ?_⟩
  decide +kernel

end Sys2Proof.Proofs
end

section
/-! PROOFS. The family 40_checksum: VALIDATE on a held frame (R105 to R107), and the commands that only report. -/

namespace Sys2Proof.Machine

/-! ### What the reporting commands do -/

@[simp] theorem exec_nop (a : Byte) (s : State) : exec (.nop a) s = guarded s s := rfl

@[simp] theorem exec_validate (x : Byte) (s : State) : exec (.validate x) s = guarded s (s.validate 0x0000 x) := rfl

@[simp] theorem exec_reserved (op a : Byte) (s : State) :
    exec (.reserved op a) s = guarded s (s.report .illegalCommand) := rfl

@[simp] theorem exec_accept (a : Byte) (s : State) : exec (.accept a) s = guarded s s.accept := rfl

@[simp] theorem exec_reject (a : Byte) (s : State) : exec (.reject a) s = guarded s s.reject := rfl

section
variable {s : State}

theorem validate_emit (h : s.rxState = .emit) (xorOut : Word) (x : Byte) :
    s.validate xorOut x = s.report (s.verdict xorOut x) := if_pos h

theorem validate_of_ne_emit (h : s.rxState ≠ .emit) (xorOut : Word) (x : Byte) :
    s.validate xorOut x = s.report .notReady := if_neg h

theorem accept_of_ne_emit (h : s.rxState ≠ .emit) : s.accept = s.report .notReady := if_neg h

theorem reject_of_ne_emit (h : s.rxState ≠ .emit) : s.reject = s.report .notReady := if_neg h

theorem verdict_ok {xorOut : Word} {x : Byte} (h : crcFinish xorOut s.crcRun x = s.receivedChecksum) :
    s.verdict xorOut x = .ok := if_pos h

theorem verdict_mismatch {xorOut : Word} {x : Byte} (h : crcFinish xorOut s.crcRun x ≠ s.receivedChecksum) :
    s.verdict xorOut x = .checksumMismatch := if_neg h

end

/-- VALIDATE reports one code, in every state (R105). -/
theorem validate_eq_report (s : State) (xorOut : Word) (x : Byte) : ∃ c, s.validate xorOut x = s.report c := by
  by_cases h : s.rxState = .emit
  · exact ⟨_, validate_emit h xorOut x⟩
  · exact ⟨_, validate_of_ne_emit h xorOut x⟩

/-- A command word is its operand above its opcode (R70). -/
theorem commandWord_eq_append (op arg : Byte) : commandWord op arg = arg ++ op := by
  rw [commandWord_eq_le16]
  apply BitVec.eq_of_getLsbD_eq
  intro i hi
  rw [getLsbD_le16, BitVec.getLsbD_append, decide_eq_true hi, Bool.true_and]

/-! ### The bytes of a held frame -/

/-- A slice of a slice that starts at index 0. -/
theorem Memory.slice_slice_zero (m : Memory) {n i j : Nat} (h : j ≤ n) : Sys2Proof.slice (m.slice 0 n) i j = m.slice i j := by
  apply List.ext_getElem
  · rw [Sys2Proof.length_slice, Memory.length_slice, Memory.length_slice]
    omega
  · intro k _ _
    simp [Sys2Proof.slice, Memory.getElem_slice]

/-- Two memories that agree on a slice but at one index have slices that differ by that byte. -/
theorem Memory.slice_eq_set {m m' : Memory} {i j k : Nat} (hk : i ≤ k)
    (h : ∀ a, i ≤ a → a < j → a ≠ k → m'.read a = m.read a) : m'.slice i j = (m.slice i j).set (k - i) (m'.read k) := by
  apply List.ext_getElem
  · simp
  · intro a ha _
    rw [Memory.length_slice] at ha
    rw [List.getElem_set, Memory.getElem_slice, Memory.getElem_slice]
    split
    · rw [show i + a = k by omega]
    · exact h _ (by omega) (by omega) (by omega)

@[simp] theorem State.length_held (s : State) : s.held.length = s.n := Memory.length_slice _ _ _

theorem State.byteAt_held {s : State} {i : Nat} (h : i < s.n) : byteAt s.held i = s.raw.read i := by
  rw [byteAt, State.held, Memory.getD_slice s.raw (by omega), Nat.zero_add]

theorem signedOf_recordAt_incompat (v : Version) (buf : List Byte) :
    signedOf v (recordAt v buf).incompat = signedOf v (byteAt buf 2) := by cases v <;> rfl

theorem le16_inj {a b c d : Byte} : le16 a b = le16 c d ↔ a = c ∧ b = d := by
  constructor
  · intro h
    exact ⟨by simpa using congrArg (byteOf · 0) h, by simpa using congrArg (byteOf · 1) h⟩
  · rintro ⟨rfl, rfl⟩
    rfl

section
variable {s : State} (h : s.Inv) (he : s.rxState = .emit)
include h he

/-- The count of a held frame reaches past its checksum, and the checksum past the header. -/
theorem State.Inv.held_bounds : s.n = s.total ∧ s.hdrLen + s.len + 2 ≤ s.n ∧ 6 ≤ s.hdrLen := by
  have hn := State.n_eq_total h.countAgrees he
  have htotal := s.total_eq
  exact ⟨hn, by omega, s.ver.hdrLen_bounds.1⟩

/-- While a frame is held, the running CRC is the CRC of all its checksummed bytes (R32, R104). -/
theorem State.Inv.crcRun_held : s.crcRun = crcCompute (s.raw.slice 1 (s.hdrLen + s.len)) := by
  obtain ⟨-, hck, hH⟩ := h.held_bounds he
  have hreach : s.crcReach = s.hdrLen + s.len := by
    rw [State.crcReach, if_neg (by omega)]
    omega
  have hcrc := h.crcAgrees
  rwa [State.crcAgrees, if_neg (by simp [he]), hreach] at hcrc

/-- VALIDATE's computed value is the full recomputation (R106). -/
theorem State.Inv.crcFinish_held (xorOut : Word) (x : Byte) :
    crcFinish xorOut s.crcRun x = checksumWith xorOut (s.raw.slice 1 (s.hdrLen + s.len)) x := by
  rw [h.crcRun_held he, checksumWith]

/-- VALIDATE on a held frame reports whether the recomputed checksum is the received one (R106). -/
theorem State.Inv.exec_validate_held (x : Byte) :
    exec (.validate x) s =
      .next { s with status := if checksum (s.raw.slice 1 (s.hdrLen + s.len)) x = s.receivedChecksum then 0 else 3 } := by
  have hcrc := h.crcFinish_held he 0x0000 x
  rw [exec_validate, guarded_of_codesLegal h.codesLegal, validate_emit he]
  split
  · next heq => rw [verdict_ok (hcrc.trans heq)]; rfl
  · next hne => rw [verdict_mismatch (fun heq => hne (hcrc.symm.trans heq))]; rfl

/-- The bytes of a held frame decode as a buffer to the record of its version, all of them consumed. -/
theorem State.Inv.frameDecode_held : frameDecode s.held = .ok (recordAt s.ver s.held, s.n) := by
  obtain ⟨hn, hck, hH⟩ := h.held_bounds he
  refine frameDecode_eq_ok.mpr ⟨s.ver, ?magic, ?header, rfl, ?length, by simp⟩
  case magic =>
    rw [State.byteAt_held (by omega)]
    exact h.magicHeld (by simp [he])
  case header =>
    have hver : s.hdrLen = s.ver.hdrLen := rfl
    rw [State.length_held]
    omega
  case length =>
    rw [hn, recordAt_frameLength, signedOf_recordAt_incompat, State.byteAt_held (by omega), State.byteAt_held (by omega)]
    rfl

/-- The check of the held bytes as a buffer compares what VALIDATE compares (R106). -/
theorem State.Inv.frameChecksumMatches_held (x : Byte) :
    frameChecksumMatches s.held x = true ↔ checksum (s.raw.slice 1 (s.hdrLen + s.len)) x = s.receivedChecksum := by
  obtain ⟨-, hck, hH⟩ := h.held_bounds he
  have hver : s.ver.hdrLen = s.hdrLen := rfl
  have hlen : ((recordAt s.ver s.held).len).toNat = s.len := by
    rw [recordAt_len, State.byteAt_held (by omega), State.len]
  have hbody : checksumBody s.held s.ver.hdrLen s.len = s.raw.slice 1 (s.hdrLen + s.len) :=
    Memory.slice_slice_zero s.raw (by omega)
  have hreceived : (recordAt s.ver s.held).checksum = s.receivedChecksum := by
    rw [recordAt_checksum, ← recordAt_len, hlen]
    exact congrArg₂ le16 (State.byteAt_held (by omega)) (State.byteAt_held (by omega))
  simp only [frameChecksumMatches, frameChecksumMatchesWith, h.frameDecode_held he, recordAt_version, hlen, hbody, hreceived,
    beq_iff_eq, checksum]

/-- Status 0 after VALIDATE says that the recomputed checksum is the received one. -/
theorem State.Inv.checksum_eq_of_validate_ok {u : State} {x : Byte} (hexec : exec (.validate x) s = .next u)
    (hu : u.status = 0) : checksum (s.raw.slice 1 (s.hdrLen + s.len)) x = s.receivedChecksum := by
  rw [h.exec_validate_held he] at hexec
  obtain rfl := Host.Outcome.next.inj hexec
  by_contra hmis
  rw [if_neg hmis] at hu
  cases hu

end

end Sys2Proof.Machine

namespace Sys2Proof.Proofs

open Sys2Proof.Machine

/-- Settles O14: VALIDATE's three cases, in a state that runs commands. -/
theorem validateComparesTheRunningCrc : Obligations.ValidateComparesTheRunningCrc := by
  intro s x hlegal
  have hexec : exec (.validate x) s = .next (s.validate 0x0000 x) := guarded_of_codesLegal hlegal _
  rw [hexec]
  refine ⟨congrArg _ (commandWord_eq_append _ _), fun he => ?notReady, fun he heq => ?ok, fun he hne => ?mismatch⟩
  case notReady => rw [validate_of_ne_emit he]; rfl
  case ok => rw [validate_emit he, verdict_ok heq]; rfl
  case mismatch => rw [validate_emit he, verdict_mismatch hne]; rfl

/-- Settles O15: R32 makes the running CRC the CRC of the held frame's checksummed bytes, which are the bytes FrameDecode
sees. -/
theorem validateAgreesWithRecomputation : Obligations.ValidateAgreesWithRecomputation :=
  fun _ x h he => ⟨h.crcRun_held he, h.exec_validate_held he x, h.frameChecksumMatches_held he x⟩

/-- Settles O29: each of these commands is a guarded change of status alone, NOP's to the status it has. -/
theorem reportingCommandsChangeOnlyStatus : Obligations.ReportingCommandsChangeOnlyStatus := by
  intro s t i hexec hi
  have honly : ∃ c, exec i s = guarded s { s with status := c } ∧ ((∃ a, i = .nop a) → c = s.status) := by
    rcases hi with ⟨a, rfl⟩ | ⟨x, rfl⟩ | ⟨op, a, rfl⟩ | ⟨he, hpush⟩ | ⟨he, hrefused⟩
    · exact ⟨s.status, exec_nop a s, fun _ => rfl⟩
    · obtain ⟨c, hc⟩ := validate_eq_report s 0x0000 x
      exact ⟨c.bits, (exec_validate x s).trans (congrArg (guarded s) hc), nofun⟩
    · exact ⟨Code.illegalCommand.bits, exec_reserved op a s, nofun⟩
    · refine ⟨Code.notReady.bits, ?_⟩
      rcases hpush with ⟨b, rfl⟩ | rfl | rfl | ⟨b, rfl⟩
      all_goals exact ⟨congrArg (guarded s) (push_emit he), nofun⟩
    · refine ⟨Code.notReady.bits, ?_⟩
      rcases hrefused with ⟨a, rfl⟩ | ⟨a, rfl⟩
      · exact ⟨(exec_accept a s).trans (congrArg (guarded s) (accept_of_ne_emit he)), nofun⟩
      · exact ⟨(exec_reject a s).trans (congrArg (guarded s) (reject_of_ne_emit he)), nofun⟩
  obtain ⟨c, hc, hnop⟩ := honly
  rw [hc, guarded_eq_next] at hexec
  obtain ⟨-, rfl⟩ := hexec
  exact ⟨rfl, rfl, rfl, rfl, rfl, rfl, fun _ => rfl, hnop⟩

/-- Settles O52: a flipped bit in the body changes the computed checksum and not the received one; a flipped bit in the checksum
changes the received one and not the computed one. -/
theorem singleBitErrorIsDetected : Obligations.SingleBitErrorIsDetected := by
  refine ⟨fun xorOut body x i j hi hj => checksumWith_set_ne hi (flipBit_ne hj), ?_⟩
  intro s t u x i j hs ht hse hte hver hi2 hi hj hflip hsame hexec hu
  have hne : t.raw.read i ≠ s.raw.read i := hflip ▸ flipBit_ne hj
  have hH : 6 ≤ s.hdrLen := s.ver.hdrLen_bounds.1
  have hhdr : t.hdrLen = s.hdrLen := congrArg Version.hdrLen hver.symm
  have hlen : t.len = s.len := congrArg BitVec.toNat (hsame 1 (by omega) (by omega))
  have hok := hs.checksum_eq_of_validate_ok hse hexec hu
  rw [ht.exec_validate_held hte, if_neg]
  rw [State.receivedChecksum, hhdr, hlen]
  by_cases hbody : i < s.hdrLen + s.len
  · rw [hsame _ (by omega) (by omega), hsame _ (by omega) (by omega), ← State.receivedChecksum, ← hok,
      Memory.slice_eq_set (k := i) (by omega) fun a _ ha hai => hsame a (by omega) hai]
    refine checksumWith_set_ne (by simp; omega) ?_
    rwa [byteAt, Memory.getD_slice _ (by omega), show 1 + (i - 1) = i by omega]
  · rw [Memory.slice_congr fun a _ ha => hsame a (by omega) (by omega), hok, State.receivedChecksum, le16_inj]
    rintro ⟨hlow, hhigh⟩
    obtain rfl | rfl : i = s.hdrLen + s.len ∨ i = s.hdrLen + s.len + 1 := by omega
    · exact hne hlow.symm
    · exact hne hhigh.symm

end Sys2Proof.Proofs
end

section
/-! PROOFS. The family 41_header_codec: HeaderDecode and FrameDecode by the bytes of the buffer (R124, R127), FrameEncode and Trim
(R131 to R134), and the signed range of a held frame (R129, R130). -/

namespace Sys2Proof

/-! ### HeaderDecode: the tests in their order (R124) -/

/-- Three bytes as a `u24` are the bytes side by side, the first the lowest (R51, R122). -/
theorem le24_eq_append (b0 b1 b2 : Byte) : le24 b0 b1 b2 = b2 ++ b1 ++ b0 := by
  apply BitVec.eq_of_getLsbD_eq
  intro i hi
  rw [getLsbD_le24, decide_eq_true hi, Bool.true_and, BitVec.getLsbD_append, BitVec.getLsbD_append, Nat.sub_sub]
  by_cases h8 : i < 8
  · simp [h8]
  · simp [h8, show i - 8 < 8 ↔ i < 16 by omega]

theorem versionOf_of_ne_magic {b : Byte} (h1 : b ≠ 0xFE) (h2 : b ≠ 0xFD) : versionOf b = none :=
  versionOf_eq_none.mpr ⟨h1, h2⟩

theorem headerDecode_badMagic {b : Byte} (h : versionOf b = none) (rest : List Byte) :
    headerDecode (b :: rest) = .error .malformed := by
  simp [headerDecode, h]

/-- A buffer that starts with a magic byte and ends inside the header is too short. -/
theorem headerDecode_short (v : Version) {rest : List Byte} (h : (v.magic :: rest).length < v.hdrLen) :
    headerDecode (v.magic :: rest) = .error .bufferTooShort := by
  simp only [headerDecode, List.length_cons, Nat.succ_ne_zero, if_false, byteAt_cons_zero, versionOf_magic]
  exact if_pos h

/-! ### FrameDecode of a frame and nothing more (R127) -/

theorem frameDecode_wireBytes {r : FrameRecord} (h : r.wellFormed = true) :
    frameDecode r.wireBytes = .ok (r, r.wireBytes.length) := by
  simpa using frameDecode_wireBytes_append h []

/-! ### FrameDecode of a buffer that ends early (R127) -/

theorem frameDecode_badMagic {b : Byte} (h : versionOf b = none) (rest : List Byte) :
    frameDecode (b :: rest) = .error .malformed := by
  simp [frameDecode, headerDecode_badMagic h]

theorem frameDecode_shortHeader (v : Version) {rest : List Byte} (h : (v.magic :: rest).length < v.hdrLen) :
    frameDecode (v.magic :: rest) = .error .incomplete := by
  simp [frameDecode, headerDecode_short v h]

/-- The fields of a header are those of any first part of the buffer that holds it. -/
theorem headerFields_take {v : Version} {k : Nat} (h : v.hdrLen ≤ k) (buf : List Byte) :
    headerFields v (buf.take k) = headerFields v buf := by
  rw [← headerFields_slice, ← headerFields_slice v buf, slice_zero, slice_zero, List.take_take, Nat.min_eq_left h]

/-- The header of a well-formed record's bytes says how long the whole frame is, wherever the bytes end after it (R79). -/
theorem frameLength_recordAt_take {r : FrameRecord} (h : r.wellFormed = true) {k : Nat} (hk : r.version.hdrLen ≤ k) :
    frameLength r.version (recordAt r.version (r.wireBytes.take k)).len (recordAt r.version (r.wireBytes.take k)).incompat =
      r.wireBytes.length := by
  have hfields := headerFields_wireBytes_append h []
  rw [List.append_nil] at hfields
  have hrecord (buf : List Byte) : recordAt r.version buf = recordOf r.version (headerFields r.version buf) buf := rfl
  rw [hrecord, headerFields_take hk, hfields, ← FrameRecord.frameLength_eq_length h]
  simp [recordOf]

/-- The start of a record's bytes is its magic byte. -/
theorem FrameRecord.wireBytes_eq_cons (r : FrameRecord) : ∃ rest, r.wireBytes = r.version.magic :: rest := by
  have hmagic := r.byteAt_wireBytes_zero
  cases hw : r.wireBytes with
  | nil => simp [FrameRecord.wireBytes_eq] at hw
  | cons b rest => exact ⟨rest, by rw [← hmagic, hw, byteAt_cons_zero]⟩

/-- A frame cut short is Incomplete, wherever it ends: before the magic byte, in the header, or after it. -/
theorem frameDecode_take_wireBytes {r : FrameRecord} (h : r.wellFormed = true) {k : Nat} (hk : k < r.wireBytes.length) :
    frameDecode (r.wireBytes.take k) = .error .incomplete := by
  have hlen : (r.wireBytes.take k).length = k := List.length_take_of_le hk.le
  cases k with
  | zero => rfl
  | succ k =>
    obtain ⟨rest, hrest⟩ := r.wireBytes_eq_cons
    have hcons : r.wireBytes.take (k + 1) = r.version.magic :: rest.take k := by rw [hrest, List.take_succ_cons]
    by_cases hhdr : r.version.hdrLen ≤ k + 1
    · have hmagic : byteAt (r.wireBytes.take (k + 1)) 0 = r.version.magic := by rw [hcons, byteAt_cons_zero]
      rw [frameDecode_of_header hmagic (hlen.symm ▸ hhdr), frameLength_recordAt_take h hhdr, if_pos (hlen.symm ▸ hk)]
    · rw [hcons] at hlen ⊢
      exact frameDecode_shortHeader _ (by omega)

end Sys2Proof

namespace Sys2Proof.Machine

/-! ### Trim, by the last byte of the payload (R133) -/

@[simp] theorem trim_nil : trim [] = [] := rfl

theorem dropTrailingZeros_zero_cons {q : List Byte} (hq : q ≠ []) : dropTrailingZeros (0 :: q) = dropTrailingZeros q := by
  cases q with
  | nil => exact absurd rfl hq
  | cons c q => rfl

theorem dropTrailingZeros_cons_of_ne {b : Byte} (hb : b ≠ 0) (q : List Byte) : dropTrailingZeros (b :: q) = b :: q := by
  cases q with
  | nil => rfl
  | cons c q => exact if_neg hb

/-- A zero byte that is not the first goes. -/
theorem trim_concat_zero {p : List Byte} (hp : p ≠ []) : trim (p ++ [0]) = trim p := by
  rw [trim, List.reverse_concat, dropTrailingZeros_zero_cons (by simpa using hp), trim]

/-- A payload that ends in a byte other than zero stays as it is. -/
theorem trim_concat_of_ne {b : Byte} (hb : b ≠ 0) (p : List Byte) : trim (p ++ [b]) = p ++ [b] := by
  rw [trim, List.reverse_concat, dropTrailingZeros_cons_of_ne hb, List.reverse_cons, List.reverse_reverse]

/-- Trim keeps the first k bytes: those dropped are zero, and no fewer bytes would do. -/
theorem trim_eq_take (p : List Byte) :
    ∃ k, k ≤ p.length ∧ trim p = p.take k ∧ (∀ i, k ≤ i → i < p.length → byteAt p i = 0) ∧
      (p ≠ [] → 1 ≤ k) ∧ (1 < k → byteAt p (k - 1) ≠ 0) := by
  induction p using List.reverseRecOn with
  | nil => exact ⟨0, by simp⟩
  | append_singleton p b ih =>
    have hlast : byteAt (p ++ [b]) p.length = b := byteAt_append_length p [b]
    by_cases hp : p = []
    · subst hp
      exact ⟨1, le_rfl, rfl, fun i h1 h2 => absurd h2 (Nat.not_lt.mpr h1), fun _ => le_rfl, fun h => absurd h (lt_irrefl 1)⟩
    by_cases hb : b = 0
    · subst hb
      obtain ⟨k, hk, htrim, hzero, hfirst, hend⟩ := ih
      refine ⟨k, by simp; omega, ?_, fun i hi hlt => ?_, fun _ => hfirst hp, fun h1 => ?_⟩
      · rw [trim_concat_zero hp, htrim, List.take_append_of_le_length hk]
      · rw [List.length_append, List.length_singleton] at hlt
        rcases Nat.lt_succ_iff_lt_or_eq.mp hlt with hlt | rfl
        · rw [byteAt_append_left hlt, hzero i hi hlt]
        · exact hlast
      · rw [byteAt_append_left (by omega)]
        exact hend h1
    · refine ⟨p.length + 1, by simp, ?_, fun i hi hlt => ?_, fun _ => by omega, fun _ => ?_⟩
      · rw [trim_concat_of_ne hb, List.take_of_length_le (by simp)]
      · rw [List.length_append, List.length_singleton] at hlt
        omega
      · rwa [Nat.add_sub_cancel, hlast]

theorem length_trim_le (p : List Byte) : (trim p).length ≤ p.length := by
  obtain ⟨k, -, htrim, -⟩ := trim_eq_take p
  rw [htrim]
  exact List.length_take_le' k p

/-- A trimmed payload reads the same with its zero extension. -/
theorem byteAt_trim (p : List Byte) (i : Nat) : byteAt (trim p) i = byteAt p i := by
  obtain ⟨k, hk, htrim, hzero, -⟩ := trim_eq_take p
  rw [htrim]
  by_cases hi : i < k
  · exact byteAt_take hi
  · have hout : byteAt (p.take k) i = 0 := List.getD_eq_default _ _ (by simp; omega)
    rw [hout]
    by_cases hlt : i < p.length
    · exact (hzero i (by omega) hlt).symm
    · exact (List.getD_eq_default _ _ (by omega)).symm

/-! ### What FrameEncode transmits (R132) -/

theorem transmittedPayload_v2_trim {r : FrameRecord} (h : r.version = .v2) : transmittedPayload r true = trim r.payload := by
  simp [transmittedPayload, h]

@[simp] theorem transmittedPayload_untrimmed (r : FrameRecord) : transmittedPayload r false = r.payload := by
  cases hv : r.version <;> simp [transmittedPayload, hv]

/-- The payload goes out as it is or trimmed. -/
theorem transmittedPayload_cases (r : FrameRecord) (doTrim : Bool) :
    transmittedPayload r doTrim = r.payload ∨ transmittedPayload r doTrim = trim r.payload := by
  cases hv : r.version <;> cases doTrim <;> simp [transmittedPayload, hv]

theorem length_transmittedPayload_le (r : FrameRecord) (doTrim : Bool) :
    (transmittedPayload r doTrim).length ≤ r.payload.length := by
  rcases transmittedPayload_cases r doTrim with h | h <;> rw [h]
  exact length_trim_le _

theorem byteAt_transmittedPayload (r : FrameRecord) (doTrim : Bool) (i : Nat) :
    byteAt (transmittedPayload r doTrim) i = byteAt r.payload i := by
  rcases transmittedPayload_cases r doTrim with h | h <;> rw [h]
  exact byteAt_trim _ i

/-- Bit 0 of a byte, cleared and then set where it was set, is as it was. -/
theorem signedMask_clear_set (b : Byte) :
    (b &&& ~~~Config.signedMask) ||| (if b &&& Config.signedMask == Config.signedMask then Config.signedMask else 0) = b := by
  revert b
  decide

/-- A V1 record keeps its own `incompat` byte. -/
theorem transmittedIncompat_v1 {r : FrameRecord} (h : r.version = .v1) : transmittedIncompat r = r.incompat := by
  simp only [transmittedIncompat, h]

/-- The `incompat` byte of a well-formed record agrees with its trailer already (R120). -/
theorem transmittedIncompat_of_wellFormed {r : FrameRecord} (h : r.wellFormed = true) : transmittedIncompat r = r.incompat := by
  obtain ⟨-, hsig, -⟩ := FrameRecord.wellFormed_iff.mp h
  cases hv : r.version with
  | v1 => exact transmittedIncompat_v1 hv
  | v2 =>
    simp only [transmittedIncompat, hsig, hv]
    exact signedMask_clear_set r.incompat

/-- The record as FrameEncode transmits it, but for its checksum: with the transmitted payload, its length, and the `incompat` byte
that agrees with the trailer (R132). -/
def transmittedRecord (r : FrameRecord) (doTrim : Bool) : FrameRecord :=
  { r with
    payload := transmittedPayload r doTrim
    len := BitVec.ofNat 8 (transmittedPayload r doTrim).length
    incompat := transmittedIncompat r }

/-- The checksummed bytes of a record: header without its magic byte, and payload (R104). -/
def recordBody (r : FrameRecord) : List Byte := r.headerBytes.drop 1 ++ r.payload

/-- The record whose bytes FrameEncode writes: as transmitted, with the checksum computed for it. -/
def encodedRecord (r : FrameRecord) (x : Byte) (doTrim : Bool) : FrameRecord :=
  { transmittedRecord r doTrim with checksum := checksum (recordBody (transmittedRecord r doTrim)) x }

/-- A record that holds the checksum FrameEncode computes is transmitted with it (R134). -/
theorem encodedRecord_of_checksum {r : FrameRecord} {x : Byte} {doTrim : Bool}
    (h : (encodedRecord r x doTrim).checksum = r.checksum) : encodedRecord r x doTrim = transmittedRecord r doTrim :=
  congrArg (fun ck => { transmittedRecord r doTrim with checksum := ck }) h

/-- What FrameEncode asks of a record: a payload as transmitted of at most 255 bytes, and of a V1 record no trailer, a message id of
one byte and no flags (R130, R131, D16). -/
structure Encodable (r : FrameRecord) (doTrim : Bool) : Prop where
  payload_le : (transmittedPayload r doTrim).length ≤ 255
  v1 : r.version = .v1 → r.sig.isSome = false ∧ r.msgid.toNat ≤ 255 ∧ r.incompat = 0 ∧ r.compat = 0

/-- HeaderEncode accepts exactly the headers that fit their version, and writes the header bytes of a record with these fields
(R131). -/
theorem headerEncode_eq_some {r : FrameRecord} {n : Nat} {hdr : List Byte} :
    headerEncode
        { len := n, incompat := r.incompat, compat := r.compat, seq := r.seq, sys := r.sys, comp := r.comp, msgid := r.msgid }
        r.version = some hdr ↔
      n ≤ 255 ∧ (r.version = .v1 → r.msgid.toNat ≤ 255 ∧ r.incompat = 0 ∧ r.compat = 0) ∧
        ({ r with len := BitVec.ofNat 8 n } : FrameRecord).headerBytes = hdr := by
  unfold headerEncode
  split
  · next hlen =>
    have hn : 255 < n := hlen
    simp only [reduceCtorEq, false_iff]
    omega
  · next hlen =>
    have hn : n ≤ 255 := Nat.not_lt.mp hlen
    cases r.version with
    | v1 =>
      simp only [FrameRecord.headerBytes, hn, true_and, forall_const]
      split
      · next hfault =>
        simp only [reduceCtorEq, false_iff]
        rintro ⟨⟨hmsgid, hincompat, hcompat⟩, -⟩
        rcases hfault with h | h | h
        · omega
        · exact h hincompat
        · exact h hcompat
      · next hfits =>
        simp only [not_or, not_lt, not_not] at hfits
        simp [hfits]
    | v2 => simp [FrameRecord.headerBytes, hn]

/-- FrameEncode accepts exactly the records it can encode, and writes the bytes of the record as transmitted. -/
theorem frameEncode_eq_some {r : FrameRecord} {x : Byte} {doTrim : Bool} {bytes : List Byte} :
    frameEncode r x doTrim = some bytes ↔ Encodable r doTrim ∧ (encodedRecord r x doTrim).wireBytes = bytes := by
  have hheader (hdr : List Byte) := headerEncode_eq_some (r := transmittedRecord r doTrim)
    (n := (transmittedPayload r doTrim).length) (hdr := hdr)
  constructor
  · intro h
    unfold frameEncode frameEncodeWith at h
    split at h
    · cases h
    · next hsigned =>
      dsimp only at h
      split at h
      · cases h
      · next hdr hhdr =>
        obtain ⟨hle, hv1, rfl⟩ := (hheader hdr).mp hhdr
        refine ⟨⟨hle, fun hv => ?_⟩, Option.some.inj h⟩
        obtain ⟨hmsgid, hincompat, hcompat⟩ := hv1 hv
        exact ⟨by simpa [hv] using hsigned, hmsgid, transmittedIncompat_v1 hv ▸ hincompat, hcompat⟩
  · rintro ⟨⟨hle, hv1⟩, rfl⟩
    have hhdr := (hheader _).mpr ⟨hle, fun (hv : r.version = .v1) => ?_, rfl⟩
    · have hsigned : ¬ (r.version = .v1 ∧ r.sig.isSome = true) := by
        rintro ⟨hv, hs⟩
        exact absurd hs (by simp [(hv1 hv).1])
      unfold frameEncode frameEncodeWith
      rw [if_neg hsigned]
      dsimp only
      split
      · next hnone => cases hhdr.symm.trans hnone
      · next hdr hsome =>
        obtain rfl := Option.some.inj (hhdr.symm.trans hsome)
        rfl
    · obtain ⟨-, hmsgid, hincompat, hcompat⟩ := hv1 hv
      have hincompat' : transmittedIncompat r = 0 := (transmittedIncompat_v1 hv).trans hincompat
      exact ⟨hmsgid, hincompat', hcompat⟩

theorem encodable_of_wellFormed {r : FrameRecord} (h : r.wellFormed = true) (doTrim : Bool) : Encodable r doTrim := by
  obtain ⟨hlen, hsig, hv1⟩ := FrameRecord.wellFormed_iff.mp h
  constructor
  · have hle := length_transmittedPayload_le r doTrim
    have hlt := r.len.isLt
    omega
  · intro hv
    obtain ⟨hincompat, hcompat, hmsgid⟩ := hv1 hv
    exact ⟨by rw [hsig, hv]; rfl, hmsgid, hincompat, hcompat⟩

/-- A well-formed record is transmitted with nothing changed but the payload and its length. -/
theorem transmittedRecord_of_wellFormed {r : FrameRecord} (h : r.wellFormed = true) (doTrim : Bool) :
    transmittedRecord r doTrim =
      { r with payload := transmittedPayload r doTrim, len := BitVec.ofNat 8 (transmittedPayload r doTrim).length } := by
  rw [transmittedRecord, transmittedIncompat_of_wellFormed h]

theorem transmittedRecord_untrimmed {r : FrameRecord} (h : r.wellFormed = true) : transmittedRecord r false = r := by
  rw [transmittedRecord_of_wellFormed h, transmittedPayload_untrimmed, FrameRecord.payload_length_of_wellFormed h,
    BitVec.ofNat_toNat, BitVec.setWidth_eq]

theorem wellFormed_encodedRecord {r : FrameRecord} (h : r.wellFormed = true) (x : Byte) (doTrim : Bool) :
    (encodedRecord r x doTrim).wellFormed = true := by
  obtain ⟨-, hsig, hv1⟩ := FrameRecord.wellFormed_iff.mp h
  have hle := (encodable_of_wellFormed h doTrim).payload_le
  rw [encodedRecord, transmittedRecord_of_wellFormed h]
  refine FrameRecord.wellFormed_iff.mpr ⟨?_, hsig, hv1⟩
  rw [BitVec.toNat_ofNat, Nat.mod_eq_of_lt (by omega)]

/-- The checksum of a record's bytes as a buffer is computed over the record's checksummed bytes. -/
theorem checksumBody_wireBytes (r : FrameRecord) :
    checksumBody r.wireBytes r.version.hdrLen r.payload.length = recordBody r := by
  have hlen : r.version.hdrLen + r.payload.length = (r.headerBytes ++ r.payload).length := by simp
  have hhdr : 1 ≤ r.headerBytes.length := by
    have hb := r.version.hdrLen_bounds
    rw [r.length_headerBytes]
    omega
  rw [checksumBody, Sys2Proof.slice, ← List.drop_take, r.wireBytes_eq, List.append_assoc, hlen, List.take_left, recordBody,
    List.drop_append_of_le_length hhdr]

/-- The bytes of a well-formed record pass the check of R106 exactly when its checksum is the one computed for it. -/
theorem frameChecksumMatches_wireBytes {r : FrameRecord} (h : r.wellFormed = true) (x : Byte) :
    frameChecksumMatches r.wireBytes x = (checksum (recordBody r) x == r.checksum) := by
  rw [frameChecksumMatches, frameChecksumMatchesWith, frameDecode_wireBytes h]
  simp only [← FrameRecord.payload_length_of_wellFormed h, checksumBody_wireBytes]
  rfl

/-! ### The candidate of a version, and the bytes of a held signed frame -/

section
variable {s : State}

/-- No V1 byte is the signed flag (R14, R130). -/
theorem State.signed_v1 (h : s.ver = .v1) : s.signed = false := by
  rw [State.signed, h]
  rfl

/-- A V1 frame has no trailer (R126). -/
theorem State.total_v1 (h : s.ver = .v1) : s.total = 6 + s.len + 2 := by
  rw [s.total_eq, State.signed_v1 h, State.hdrLen, h]
  rfl

theorem State.total_signed (h : s.signed = true) : s.total = s.trailerOffset + 13 := by
  rw [s.total_eq, if_pos h]
  rfl

end

end Sys2Proof.Machine

namespace Sys2Proof.Proofs

open Sys2Proof.Machine

/-- Settles O57: FrameEncode wrote the bytes of a well-formed record, which decode to it; the premise makes its checksum the
record's own. -/
theorem frameRoundTrip : Obligations.FrameRoundTrip := by
  intro r x trimmed bytes hwf hencode p hck
  obtain ⟨-, rfl⟩ := frameEncode_eq_some.mp hencode
  have hwf' := wellFormed_encodedRecord hwf x trimmed
  have hwritten := le16_wireBytes_checksum (encodedRecord r x trimmed) []
  rw [List.append_nil] at hwritten
  have hsame : encodedRecord r x trimmed = transmittedRecord r trimmed :=
    encodedRecord_of_checksum (hwritten.symm.trans hck.symm)
  have hdecode := frameDecode_wireBytes hwf'
  refine ⟨?_, ?_, ?_, ?_, fun i _ => byteAt_transmittedPayload r trimmed i⟩
  · rw [hdecode, hsame, transmittedRecord_of_wellFormed hwf]
  · rw [frameChecksumMatches_wireBytes hwf']
    exact beq_self_eq_true _
  · rintro rfl
    rw [hdecode, hsame, transmittedRecord_untrimmed hwf]
  · rintro rfl hv
    exact transmittedPayload_v2_trim hv

/-- Settles O42: without a trailer the count has nowhere to stand in SIGNATURE (R29). -/
theorem v1IsNeverSigned : Obligations.V1IsNeverSigned := by
  intro s hreach hv
  have hcount := hreach.inv.countAgrees
  refine ⟨fun hsig => ?_, fun he => ⟨?_, ?_⟩⟩
  · have htotal := State.total_v1 hv
    have hhdr : s.hdrLen = 6 := congrArg Version.hdrLen hv
    simp only [State.countAgrees, hsig] at hcount
    omega
  · exact (View.read_held (v := .outSigned) he rfl rfl nofun).trans
      (congrArg (fun signed => ReadResult.value (BitVec.ofBool signed)) (State.signed_v1 hv))
  · rw [State.n_eq_total hcount he, State.total_v1 hv]

/-- Settles O48: the last six bytes of the trailer are the signature (R43, R128). -/
theorem signedRangeIsTheFrameButItsSignature : Obligations.SignedRangeIsTheFrameButItsSignature := by
  intro s hinv he hs
  have htotal := State.total_signed hs
  have hn := State.n_eq_total hinv.countAgrees he
  refine ⟨Memory.length_slice _ _ _, s.raw.slice (s.total - 6) s.total, ?_, ?_, fun j => ?_⟩
  · rw [Memory.length_slice]
    omega
  · rw [State.held, State.prehashBytes, hn, Memory.slice_append _ (by omega) (by omega)]
  · have hread : View.read (.outSig j) s = .value (s.raw.read (s.trailerOffset + 7 + j.val)) := View.read_trailer he hs rfl
    rw [hread, byteAt, Memory.getD_slice _ (by omega), show s.total - 6 = s.trailerOffset + 7 by omega]

/-- Settles O54: the first byte and the number of bytes decide; a frame's bytes decode to its record, whatever follows. -/
theorem frameDecodeResults : Obligations.FrameDecodeResults := by
  refine ⟨rfl, fun b rest h1 h2 => frameDecode_badMagic (versionOf_of_ne_magic h1 h2) rest,
    fun r k hwf hk => frameDecode_take_wireBytes hwf hk, fun r rest hwf => ⟨frameDecode_wireBytes_append hwf rest, ?_⟩⟩
  rw [r.length_wireBytes, FrameRecord.payload_length_of_wellFormed hwf]
  cases r.version <;> rfl

/-- Settles O55, by induction on the payload from its end. -/
theorem trimDropsTrailingZerosButTheFirstByte : Obligations.TrimDropsTrailingZerosButTheFirstByte := trim_eq_take

/-- Settles O56: each fault is a way not to be encodable, and a well-formed record is encodable. -/
theorem frameEncodeRefusesWhatItCannotEncode : Obligations.FrameEncodeRefusesWhatItCannotEncode := by
  have refused {r : FrameRecord} {x : Byte} {trimmed : Bool} (h : ¬ Encodable r trimmed) : frameEncode r x trimmed = none :=
    Option.eq_none_iff_forall_ne_some.mpr fun _ hsome => h (frameEncode_eq_some.mp hsome).1
  refine ⟨fun r x trimmed hv hfault => refused fun henc => ?_, fun r x trimmed hlong => refused fun henc => ?_,
    fun r x trimmed hwf => ?_⟩
  · obtain ⟨hsig, hmsgid, hincompat, hcompat⟩ := henc.v1 hv
    rcases hfault with h | h | h | h
    · exact absurd h (by simp [hsig])
    · omega
    · exact h hincompat
    · exact h hcompat
  · exact absurd henc.payload_le (by omega)
  · rw [frameEncode_eq_some.mpr ⟨encodable_of_wellFormed hwf trimmed, rfl⟩]
    rfl

/-- Settles O53: the tests by the buffer's first byte and its length, the fields by the bytes of the header. -/
theorem headerDecodeResults : Obligations.HeaderDecodeResults := by
  refine ⟨rfl, fun b rest h1 h2 => headerDecode_badMagic (versionOf_of_ne_magic h1 h2) rest,
    fun rest h => headerDecode_short .v1 (Nat.succ_lt_succ h), fun rest h => headerDecode_short .v2 (Nat.succ_lt_succ h),
    fun l q y c m rest => ?_, fun l f p q y c m0 m1 m2 rest => ?_⟩
  · exact headerDecode_eq_ok.mpr ⟨rfl, Nat.le_add_left 6 _, rfl⟩
  · rw [← le24_eq_append]
    exact headerDecode_eq_ok.mpr ⟨rfl, Nat.le_add_left 10 _, rfl⟩

end Sys2Proof.Proofs
end

section
/-! PROOFS. The family 42_stream_receiver: what one byte does (R151 to R158, R160), and the commands with no byte (R159,
R161 to R166). -/

namespace Sys2Proof.Machine

/-! ### What a read of a view does as a step (R46, R56) -/

section
variable {v : View} {s : State}

theorem readOutcome_of_value {x : BitVec v.width} (h : v.read s = .value x) : readOutcome v s = .next s := by
  simp only [readOutcome, h]

theorem readOutcome_of_fault {f : Fault} (h : v.read s = .fault f) : readOutcome v s = .fault f := by
  simp only [readOutcome, h]

theorem readOutcome_of_refused {r : Refusal} (h : v.read s = .refused r) : readOutcome v s = .refused r := by
  simp only [readOutcome, h]

end

/-! ### One byte offered (R153 to R155, R160) -/

section
variable {s : State} {b : Byte}

/-- PUSH and the one-byte wire units are the guarded PUSH of the byte they offer. -/
theorem exec_of_offeredByte {i : Instr}
    (h : i = .push b ∨ (i = .sofV1 ∧ b = 0xFE) ∨ (i = .sofV2 ∧ b = 0xFD) ∨ i = .noise b) (s : State) :
    exec i s = guarded s (s.push b) := by
  obtain rfl | ⟨rfl, rfl⟩ | ⟨rfl, rfl⟩ | rfl := h <;> rfl

/-- Outside EMIT, PUSH is Consume and a status that says whether a frame is now held. -/
theorem push_eq_consume (h : s.rxState ≠ .emit) (b : Byte) :
    s.push b = { s.consume b with status := if (s.consume b).rxState = .emit then 0 else 1 } := by
  rw [push_of_ne_emit h]
  split <;> rfl

theorem push_status (h : s.rxState ≠ .emit) (b : Byte) :
    (s.push b).status = if (s.push b).rxState = .emit then 0 else 1 := by
  rw [push_eq_consume h]

theorem push_magic {v : Version} (h : s.rxState = .seeking) (hb : versionOf b = some v) :
    s.push b = (s.openCandidate v b).report .incomplete := by
  rw [push_of_ne_emit (by simp [h]), consume_magic h hb]
  rfl

theorem push_noise (h : s.rxState = .seeking) (hb : versionOf b = none) : s.push b = s.report .incomplete := by
  rw [push_of_ne_emit (by simp [h]), consume_noise h hb, h]
  rfl

/-- Consume leads back to SEEKING from no other state (R151). -/
theorem consume_ne_seeking (h : s.rxState ≠ .seeking) (b : Byte) : (s.consume b).rxState ≠ .seeking := by
  rcases consume_cases s b with ⟨hs, -⟩ | ⟨hs, -⟩ | ⟨-, e⟩ | ⟨-, e⟩ | ⟨-, e⟩
  · exact absurd hs h
  · exact absurd hs h
  · rw [e]; exact nextRx_ne_seeking h
  · rw [e]; exact nextRx_ne_seeking h
  · rwa [e]

theorem push_ne_seeking (h : s.rxState ≠ .seeking) (b : Byte) : (s.push b).rxState ≠ .seeking := by
  by_cases he : s.rxState = .emit
  · rwa [push_emit he]
  · rw [push_of_ne_emit he]
    exact consume_ne_seeking h b

theorem pushAll_ne_seeking (h : s.rxState ≠ .seeking) (bs : List Byte) : (s.pushAll bs).rxState ≠ .seeking := by
  induction bs generalizing s with
  | nil => exact h
  | cons b bs ih => exact ih (push_ne_seeking h b)

/-- Consume moves the receiver along the chain of states (R151). -/
theorem consume_chainStep (h : s.rxState.unused = false) (b : Byte) : chainStep s.rxState (s.consume b).rxState := by
  rcases consume_cases s b with ⟨hs, v, -, e⟩ | ⟨hs, -, e⟩ | ⟨hs, e⟩ | ⟨hs, e⟩ | ⟨hs, e⟩
  · rw [e, hs]; exact .inr rfl
  · rw [e, hs]; exact .inl rfl
  · rw [e]
    exact nextRx_chainStep (s := (s.store b).foldCrc b) h (by rcases hs with hs | hs <;> simp [hs])
  · rw [e]
    exact nextRx_chainStep (s := s.store b) h (by rcases hs with hs | hs <;> simp [hs])
  · rw [e]
    rcases hs with hs | hs | hs <;> rw [hs] at h ⊢
    · exact rfl
    · cases h
    · cases h

theorem push_chainStep (h : s.rxState.unused = false) (b : Byte) : chainStep s.rxState (s.push b).rxState := by
  by_cases he : s.rxState = .emit
  · rw [push_emit he, State.report_rxState, he]
    rfl
  · rw [push_of_ne_emit he]
    exact consume_chainStep h b

/-! #### The state advance of R155, state by state -/

theorem nextRx_header (h : s.rxState = .header) :
    s.nextRx = if s.n = s.hdrLen then (if 0 < s.len then .payload else .checksum) else .header := by
  simp only [State.nextRx, h]

theorem nextRx_payload (h : s.rxState = .payload) :
    s.nextRx = if s.n = s.hdrLen + s.len then .checksum else .payload := by
  simp only [State.nextRx, h]

theorem nextRx_checksum (h : s.rxState = .checksum) :
    s.nextRx = if s.n = s.hdrLen + s.len + 2 then (if s.signed then .signature else .emit) else .checksum := by
  simp only [State.nextRx, h]
  rfl

theorem nextRx_signature (h : s.rxState = .signature) :
    s.nextRx = if s.n = s.total then .emit else .signature := by
  simp only [State.nextRx, h]

/-! #### The byte stored (R154) -/

theorem read_store_of_ne (b : Byte) {j : Nat} (h : j ≠ s.n) : (s.store b).raw.read j = s.raw.read j := by
  rw [State.store_raw]
  split
  · exact Memory.read_write_of_ne s.raw b h
  · rfl

theorem read_store_n (hwf : s.raw.wf = true) (hn : s.n < 280) (b : Byte) : (s.store b).raw.read s.n = b := by
  rw [State.store_raw, if_pos (show s.n < Config.rawCap from hn), Memory.read_write_same hwf]

end

/-! ### Only the magic byte, the length byte and the signed bit steer (R158) -/

namespace State.SameSteering

/-- Of a candidate just opened, only the version steers. -/
theorem openCandidate (s t : State) (v : Version) (b c : Byte) : (s.openCandidate v b).SameSteering (t.openCandidate v c) :=
  ⟨rfl, rfl, rfl, fun hn => absurd hn (show ¬ 2 ≤ 1 by decide), fun hn => absurd hn (show ¬ 3 ≤ 1 by decide)⟩

section
variable {s t : State} (h : s.SameSteering t)
include h

theorem report (c : Code) : (s.report c).SameSteering (t.report c) := ⟨h.rxState, h.ver, h.n, h.len, h.signed⟩

theorem foldCrc (b c : Byte) : (s.foldCrc b).SameSteering (t.foldCrc c) := ⟨h.rxState, h.ver, h.n, h.len, h.signed⟩

/-- The stored bytes need to agree at the length byte, and in bit 0 at the V2 flags. -/
theorem store (hs : s.raw.wf = true) (ht : t.raw.wf = true) {b c : Byte} (hlen : s.n = 1 → b = c)
    (hflags : s.n = 2 → s.ver = .v2 → b.getLsbD 0 = c.getLsbD 0) : (s.store b).SameSteering (t.store c) where
  rxState := h.rxState
  ver := h.ver
  n := congrArg (· + 1) h.n
  len := by
    intro hn
    rw [State.store_n] at hn
    by_cases h1 : s.n = 1
    · have hb := read_store_n hs (by omega) b
      have hc := read_store_n ht (by rw [← h.n]; omega) c
      rw [h1] at hb
      rw [← h.n, h1] at hc
      rw [hb, hc, hlen h1]
    · rw [read_store_of_ne b (Ne.symm h1), read_store_of_ne c (h.n ▸ Ne.symm h1)]
      exact h.len (by omega)
  signed := by
    intro hn
    rw [State.store_n] at hn
    by_cases h2 : s.n = 2
    · have hb := read_store_n hs (by omega) b
      have hc := read_store_n ht (by rw [← h.n]; omega) c
      rw [h2] at hb
      rw [← h.n, h2] at hc
      rw [Bool.eq_iff_iff, State.signed_eq_true_iff, State.signed_eq_true_iff, hb, hc, State.store_ver, State.store_ver,
        ← h.ver]
      exact and_congr_right fun hv => by rw [hflags h2 hv]
    · rw [State.store_signed s b h2, State.store_signed t c (h.n ▸ h2)]
      exact h.signed (by omega)

/-- The state advance reads the length and the signed bit only once they are in. -/
theorem nextRx : s.nextRx = t.nextRx := by
  have hH : 6 ≤ s.hdrLen := s.ver.hdrLen_bounds.1
  have hhdr : t.hdrLen = s.hdrLen := congrArg Version.hdrLen h.ver.symm
  by_cases hn : 3 ≤ s.n
  · have hlen : t.len = s.len := congrArg BitVec.toNat (h.len (by omega)).symm
    have htotal : t.total = s.total := by rw [t.total_eq, s.total_eq, hhdr, hlen, h.signed hn]
    unfold State.nextRx
    rw [h.rxState, h.n, hhdr, hlen, htotal, h.signed hn]
  · have hs := s.total_eq
    have ht := t.total_eq
    have htn := h.n
    have hrx := h.rxState
    cases hr : s.rxState with
    | header =>
      rw [nextRx_header hr, nextRx_header (hrx ▸ hr), if_neg (by omega), if_neg (by omega)]
    | payload => rw [nextRx_payload hr, nextRx_payload (hrx ▸ hr), if_neg (by omega), if_neg (by omega)]
    | checksum => rw [nextRx_checksum hr, nextRx_checksum (hrx ▸ hr), if_neg (by omega), if_neg (by omega)]
    | signature => rw [nextRx_signature hr, nextRx_signature (hrx ▸ hr), if_neg (by omega), if_neg (by omega)]
    | _ => simp only [State.nextRx, hr, ← hrx]

theorem advance : s.advance.SameSteering t.advance := ⟨h.nextRx, h.ver, h.n, h.len, h.signed⟩

variable (hs : s.raw.wf = true) (ht : t.raw.wf = true) {b c : Byte}
  (hmagic : s.rxState = .seeking → versionOf b = versionOf c) (hlen : s.rxState ≠ .seeking → s.n = 1 → b = c)
  (hflags : s.rxState ≠ .seeking → s.n = 2 → s.ver = .v2 → b.getLsbD 0 = c.getLsbD 0)
include hs ht hmagic hlen hflags

theorem consume : (s.consume b).SameSteering (t.consume c) := by
  have stored (h0 : s.rxState ≠ .seeking) : (s.store b).SameSteering (t.store c) := h.store hs ht (hlen h0) (hflags h0)
  have hrx := h.rxState
  cases hr : s.rxState with
  | seeking =>
    cases hb : versionOf b with
    | some v =>
      rw [consume_magic hr hb, consume_magic (hrx ▸ hr) (hmagic hr ▸ hb)]
      exact openCandidate s t v b c
    | none =>
      rw [consume_noise hr hb, consume_noise (hrx ▸ hr) (hmagic hr ▸ hb)]
      exact h
  | header =>
    rw [consume_header hr, consume_header (hrx ▸ hr)]
    exact ((stored (by simp [hr])).foldCrc b c).advance
  | payload =>
    rw [consume_payload hr, consume_payload (hrx ▸ hr)]
    exact ((stored (by simp [hr])).foldCrc b c).advance
  | checksum =>
    rw [consume_checksum hr, consume_checksum (hrx ▸ hr)]
    exact (stored (by simp [hr])).advance
  | signature =>
    rw [consume_signature hr, consume_signature (hrx ▸ hr)]
    exact (stored (by simp [hr])).advance
  | _ =>
    have es : s.consume b = s := by simp only [State.consume, hr]
    have et : t.consume c = t := by simp only [State.consume, ← hrx, hr]
    rw [es, et]
    exact h

theorem push : (s.push b).SameSteering (t.push c) ∧ (s.push b).status = (t.push c).status := by
  by_cases he : s.rxState = .emit
  · rw [push_emit he, push_emit (h.rxState ▸ he)]
    exact ⟨h.report _, rfl⟩
  · have hc := h.consume hs ht hmagic hlen hflags
    rw [push_of_ne_emit he, push_of_ne_emit (h.rxState ▸ he), ← hc.rxState]
    exact ⟨hc.report _, rfl⟩

end

end State.SameSteering

/-! ### A scan of queued bytes (R156, R162, R163) -/

section
variable {s : State}

/-- Consuming a sequence stores at most one byte for each byte of it. -/
theorem foldl_consume_storesUpTo (s : State) (bs : List Byte) : s.StoresUpTo (bs.foldl State.consume s) bs.length := by
  induction bs generalizing s with
  | nil => exact .of_eq rfl rfl
  | cons b bs ih =>
    rw [List.foldl_cons, List.length_cons, Nat.add_comm]
    exact (consume_storesUpTo s b).trans (ih (s.consume b))

/-- Bytes with no magic byte among them, scanned in SEEKING, are all discarded (R153). -/
theorem foldl_consume_noise {bs : List Byte} (h : s.rxState = .seeking) (hb : ∀ b, b ∈ bs → versionOf b = none) :
    bs.foldl State.consume s = s := by
  induction bs with
  | nil => rfl
  | cons b bs ih =>
    rw [List.foldl_cons, consume_noise h (hb b List.mem_cons_self)]
    exact ih fun c hc => hb c (List.mem_cons_of_mem _ hc)

/-- A frame released with the bytes q queued, and the queue drained: the first k bytes of q are scanned from SEEKING, until q is
empty or the next frame is held. -/
theorem release_drain_spec (s : State) (q : List Byte) :
    ∃ k, k ≤ q.length ∧
      ({ s with pq := q } : State).release.drain.report .ok =
        { (q.take k).foldl State.consume s.release with pq := q.drop k, status := 0 } ∧
      (((q.take k).foldl State.consume s.release).rxState = .emit ∨ k = q.length) ∧
      ∀ j, j < k → ((q.take j).foldl State.consume s.release).rxState ≠ .emit := by
  have hq (j : Nat) : (q.take j).foldl State.consume ({ s with pq := q } : State).release =
      { (q.take j).foldl State.consume s.release with pq := q } := foldl_consume_withPq (q.take j) q s.release
  obtain ⟨k, hk, hdrain, hstop, hbefore⟩ := drainFrom_spec q ({ s with pq := q } : State).release
  rw [hq] at hdrain hstop
  refine ⟨k, hk, ?_, hstop, fun j hj => ?_⟩
  · exact congrArg (State.report · .ok) hdrain
  · have := hbefore j hj
    rwa [hq] at this

theorem accept_emit (h : s.rxState = .emit) : s.accept = s.release.drain.report .ok := if_pos h

theorem reject_emit (h : s.rxState = .emit) : s.reject = s.requeue.release.drain.report .ok := if_pos h

/-- The bytes of the candidate after its magic byte. -/
theorem State.held_drop_one (s : State) : s.held.drop 1 = s.raw.slice 1 s.n := by
  rcases Nat.eq_zero_or_pos s.n with h0 | hpos
  · simp [State.held, h0, Memory.slice_of_le]
  · rw [State.held, ← Memory.slice_append s.raw (Nat.zero_le 1) hpos]
    exact List.drop_left' (Memory.length_slice _ _ _)

end

end Sys2Proof.Machine

namespace Sys2Proof.Proofs

open Sys2Proof.Machine

/-- Settles O7: nothing pending is the first case of a step; a read that has a value leaves the state, any other stops. -/
theorem stepWithoutACommandChangesNoState : Obligations.StepWithoutACommandChangesNoState := by
  refine ⟨fun s => step_of_port_nil, fun s v rest hport => ?_⟩
  have hstep : step s = readOutcome v { s with port := rest } := step_of_port_cons hport
  rw [hstep]
  exact ⟨fun _ => readOutcome_of_value, fun _ => readOutcome_of_fault, fun _ => readOutcome_of_refused⟩

/-- Settles O10: ABORT is the reset of every element. -/
theorem abortTakesTheResetValues : Obligations.AbortTakesTheResetValues :=
  fun s _ => ⟨congrArg _ (commandWord_eq_append _ _), s.resetBlock, rfl, rfl, rfl, rfl, rfl, rfl, rfl, rfl⟩

/-- Settles O12. -/
theorem nopChangesNothing : Obligations.NopChangesNothing :=
  fun _ _ hlegal => ⟨congrArg _ (commandWord_eq_append _ _), guarded_of_codesLegal hlegal _⟩

/-- Settles O13: the word is the encoding of the reserved opcode, whose meaning is a report. -/
theorem reservedOpcodeOnlyReports : Obligations.ReservedOpcodeOnlyReports := by
  intro s op arg hlegal hop
  refine ⟨?_, guarded_of_codesLegal hlegal _⟩
  rw [← commandWord_eq_append]
  exact decode_encode (i := .reserved op arg) (decide_eq_true hop)

/-- Settles O16: the two cases of PUSH. -/
theorem pushConsumesUnlessAFrameIsHeld : Obligations.PushConsumesUnlessAFrameIsHeld := by
  intro s b hlegal
  have hexec : exec (.push b) s = .next (s.push b) := guarded_of_codesLegal hlegal _
  rw [hexec]
  exact ⟨congrArg _ (commandWord_eq_append _ _), fun he => congrArg _ (push_emit he),
    fun he => congrArg _ (push_eq_consume he b)⟩

/-- Settles O17: a magic byte by its version, any other as noise. -/
theorem seekingOpensACandidateOnAMagicByte : Obligations.SeekingOpensACandidateOnAMagicByte := by
  intro s hlegal hseek
  have hexec {i : Instr} {t : State} (hi : exec i s = guarded s t) : exec i s = .next t :=
    hi.trans (guarded_of_codesLegal hlegal t)
  refine ⟨fun i hi => ?v1, fun i hi => ?v2, fun b i h1 h2 hi => ?noise⟩
  case v1 =>
    have hpush : s.push 0xFE = (s.openCandidate .v1 0xFE).report .incomplete := push_magic hseek rfl
    rw [hexec (exec_of_offeredByte (b := 0xFE) (by tauto) s), hpush]
    rfl
  case v2 =>
    have hpush : s.push 0xFD = (s.openCandidate .v2 0xFD).report .incomplete := push_magic hseek rfl
    rw [hexec (exec_of_offeredByte (b := 0xFD) (by tauto) s), hpush]
    rfl
  case noise =>
    rw [hexec (exec_of_offeredByte (b := b) (by tauto) s), push_noise hseek (versionOf_of_ne_magic h1 h2)]
    rfl

/-- Settles O19: Consume keeps the codes legal, and PUSH's status says whether a frame is held. -/
theorem pushNeverReportsCorruption : Obligations.PushNeverReportsCorruption := by
  intro s b hlegal he
  refine ⟨s.push b, guarded_of_codesLegal hlegal _, ?_, ?_, push_codesLegal hlegal b⟩
  · rw [push_status he]
    split
    · exact .inl rfl
    · exact .inr rfl
  · rw [push_status he]
    split <;> simp [*]

/-- Settles O18: Consume in each of the four states of a candidate. -/
theorem candidateByteIsStoredAndCounted : Obligations.CandidateByteIsStoredAndCounted := by
  intro s b i hlegal hn hr hi
  have he : s.rxState ≠ .emit := by rcases hr with hr | hr | hr | hr <;> simp [hr]
  have hraw : (s.store b).raw = s.raw.write s.n b := if_pos hn
  refine ⟨s.push b, (exec_of_offeredByte hi s).trans (guarded_of_codesLegal hlegal _), ?_⟩
  have hstatus := push_status he b
  rw [push_of_ne_emit he] at hstatus ⊢
  rcases hr with hr | hr | hr | hr
  · rw [consume_header hr] at hstatus ⊢
    exact ⟨hraw, rfl, rfl, rfl, rfl, fun _ => rfl, by simp [hr], fun _ => nextRx_header hr, by simp [hr], by simp [hr],
      by simp [hr], hstatus⟩
  · rw [consume_payload hr] at hstatus ⊢
    exact ⟨hraw, rfl, rfl, rfl, rfl, fun _ => rfl, by simp [hr], by simp [hr], fun _ => nextRx_payload hr, by simp [hr],
      by simp [hr], hstatus⟩
  · rw [consume_checksum hr] at hstatus ⊢
    exact ⟨hraw, rfl, rfl, rfl, rfl, by simp [hr], fun _ => rfl, by simp [hr], by simp [hr], fun _ => nextRx_checksum hr,
      by simp [hr], hstatus⟩
  · rw [consume_signature hr] at hstatus ⊢
    exact ⟨hraw, rfl, rfl, rfl, rfl, by simp [hr], fun _ => rfl, by simp [hr], by simp [hr], by simp [hr],
      fun _ => nextRx_signature hr, hstatus⟩

/-- Settles O20: Consume moves along the chain; of the other commands only ACCEPT, REJECT and ABORT touch the receiver's state, and
ACCEPT and REJECT only while a frame is held. -/
theorem pushFollowsTheChainOfStates : Obligations.PushFollowsTheChainOfStates := by
  constructor
  · intro s t b hexec
    obtain ⟨hlegal, rfl⟩ := guarded_eq_next.mp hexec
    exact push_chainStep (codesLegal_iff.mp hlegal).1 b
  · intro s t i hexec h0 ht
    have stays {u : State} (hu : u.rxState ≠ .seeking) (hi : exec i s = guarded s u) : False := by
      rw [hi] at hexec
      obtain ⟨-, rfl⟩ := guarded_eq_next.mp hexec
      exact hu ht
    cases i with
    | nop a => exact (stays h0 rfl).elim
    | push b => exact (stays (push_ne_seeking h0 b) rfl).elim
    | validate x =>
      obtain ⟨c, hc⟩ := validate_eq_report s 0x0000 x
      exact (stays (u := s.report c) h0 ((exec_validate x s).trans (congrArg (guarded s) hc))).elim
    | accept a =>
      by_cases he : s.rxState = .emit
      · exact .inl ⟨he, a, .inl rfl⟩
      · exact (stays (u := s.report .notReady) h0
          ((exec_accept a s).trans (congrArg (guarded s) (accept_of_ne_emit he)))).elim
    | reject a =>
      by_cases he : s.rxState = .emit
      · exact .inl ⟨he, a, .inr rfl⟩
      · exact (stays (u := s.report .notReady) h0
          ((exec_reject a s).trans (congrArg (guarded s) (reject_of_ne_emit he)))).elim
    | abort a => exact .inr ⟨a, rfl⟩
    | reserved op a => exact (stays (u := s.report .illegalCommand) h0 rfl).elim
    | pushs bs => exact (stays (pushAll_ne_seeking h0 bs) rfl).elim
    | sofV1 => exact (stays (push_ne_seeking h0 _) (exec_sofV1 s)).elim
    | sofV2 => exact (stays (push_ne_seeking h0 _) (exec_sofV2 s)).elim
    | noise b => exact (stays (push_ne_seeking h0 b) rfl).elim
    | v1Frame r | v2FrameUnsigned r | v2FrameSigned r => exact (stays (pushAll_ne_seeking h0 r.wireBytes) rfl).elim

/-- Settles O21: each part of Consume keeps the relation. -/
theorem onlyMagicLengthAndSignedBitSteer : Obligations.OnlyMagicLengthAndSignedBitSteer := by
  intro s t s' t' b c hs ht hsame hmagic hlen hflags hexec hexec'
  obtain ⟨-, rfl⟩ := guarded_eq_next.mp hexec
  obtain ⟨-, rfl⟩ := guarded_eq_next.mp hexec'
  exact hsame.push hs ht hmagic hlen hflags

/-- Settles O22: ACCEPT releases the frame and drains what is queued. -/
theorem acceptReleasesTheFrameAndDrains : Obligations.AcceptReleasesTheFrameAndDrains := by
  intro s arg hlegal
  have hexec : exec (.accept arg) s = .next s.accept := guarded_of_codesLegal hlegal _
  rw [hexec]
  refine ⟨congrArg _ (commandWord_eq_append _ _), fun he => congrArg _ (accept_of_ne_emit he), fun he => ?_⟩
  obtain ⟨k, hk, hdrain, hscan⟩ := release_drain_spec s s.pq
  exact ⟨k, hk, congrArg _ ((accept_emit he).trans hdrain), hscan⟩

/-- Settles O23: REJECT releases the frame and drains its bytes, all but the magic, and then what was queued. -/
theorem rejectReplaysAllButTheMagic : Obligations.RejectReplaysAllButTheMagic := by
  intro s arg hlegal
  have hexec : exec (.reject arg) s = .next s.reject := guarded_of_codesLegal hlegal _
  rw [hexec]
  refine ⟨congrArg _ (commandWord_eq_append _ _), fun he => congrArg _ (reject_of_ne_emit he), fun he => ?_⟩
  obtain ⟨k, hk, hdrain, hscan⟩ := release_drain_spec s (s.raw.slice 1 s.n ++ s.pq)
  rw [s.held_drop_one]
  exact ⟨k, hk, congrArg _ ((reject_emit he).trans hdrain), hscan⟩

/-- Settles O30, case by case of Consume. -/
theorem pushStoresOneByteAndLeavesTheRest : Obligations.PushStoresOneByteAndLeavesTheRest := by
  intro s t i b hi hexec
  rw [exec_of_offeredByte hi, guarded_eq_next] at hexec
  obtain ⟨hlegal, rfl⟩ := hexec
  refine ⟨push_pq s b, push_port s b, ?_⟩
  by_cases he : s.rxState = .emit
  · rw [push_emit he]
    exact ⟨fun _ _ _ => rfl, fun _ _ _ => rfl, fun _ => rfl, fun _ => rfl, fun _ => rfl⟩
  rw [push_of_ne_emit he]
  rcases consume_cases s b with ⟨hs, v, hb, e⟩ | ⟨hs, hb, e⟩ | ⟨hs, e⟩ | ⟨hs, e⟩ | ⟨hs, e⟩ <;> rw [e]
  · -- a candidate opens: one byte at index 0, a new version and CRC
    exact ⟨fun _ j hj => Memory.read_write_of_ne s.raw b hj, by simp [hs], by simp [hs, hb], by simp [hs, hb],
      by simp [hs, hb]⟩
  · exact ⟨fun _ _ _ => rfl, fun _ _ _ => rfl, fun _ => rfl, fun _ => rfl, fun _ => rfl⟩
  · -- HEADER and PAYLOAD: one byte at index n, and the CRC
    refine ⟨?_, fun _ j hj => read_store_of_ne b hj, ?_, fun _ => rfl, ?_⟩ <;> rcases hs with hs | hs <;> simp [hs]
  · -- CHECKSUM and SIGNATURE: one byte at index n
    refine ⟨?_, fun _ j hj => read_store_of_ne b hj, ?_, fun _ => rfl, fun _ => rfl⟩ <;> rcases hs with hs | hs <;> simp [hs]
  · exact ⟨fun _ _ _ => rfl, fun _ _ _ => rfl, fun _ => rfl, fun _ => rfl, fun _ => rfl⟩

/-- Settles O32: a scan of k bytes from SEEKING stores at most k bytes from index 0 on, and nothing where no byte of it is a magic
byte. -/
theorem drainStoresOnlyWhatItScans : Obligations.DrainStoresOnlyWhatItScans := by
  intro s t i queue he hi hexec
  obtain ⟨k, hk, hdrain, -⟩ := release_drain_spec s queue
  have ht : t = { (queue.take k).foldl State.consume s.release with pq := queue.drop k, status := 0 } := by
    rw [← hdrain]
    rcases hi with ⟨⟨a, rfl⟩, rfl⟩ | ⟨⟨a, rfl⟩, rfl⟩
    · obtain ⟨-, rfl⟩ := guarded_eq_next.mp hexec
      exact accept_emit he
    · obtain ⟨-, rfl⟩ := guarded_eq_next.mp hexec
      rw [s.held_drop_one]
      exact reject_emit he
  have hstores := foldl_consume_storesUpTo s.release (queue.take k)
  have hindex : s.release.storeIndex = 0 := rfl
  rw [List.length_take_of_le hk] at hstores
  subst ht
  refine ⟨foldl_consume_port _ _, rfl, k, hk, rfl, fun j hj => hstores.read_eq j (by omega), fun hnoise => ?_⟩
  rw [foldl_consume_noise rfl hnoise]
  exact ⟨rfl, rfl⟩

end Sys2Proof.Proofs
end

section
/-! PROOFS. The family 42_stream_receiver: the candidate in RAW against FrameDecode of its bytes, and a frame offered
whole (R164). -/

namespace Sys2Proof

/-! ### FrameDecode and the bytes it consumes (R127) -/

section
variable {buf : List Byte} {r : FrameRecord} {c : Nat} (h : frameDecode buf = .ok (r, c))
include h

/-- The bytes consumed are the frame, and it stands at the start of the buffer. -/
theorem frameDecode_consumed : c = r.wireBytes.length ∧ buf = r.wireBytes ++ buf.drop c := by
  obtain ⟨-, hbytes⟩ := frameDecode_sound h
  obtain ⟨-, -, -, -, -, hle⟩ := frameDecode_eq_ok.mp h
  refine ⟨?_, ?_⟩
  · rw [hbytes, List.length_take_of_le hle]
  · rw [hbytes, List.take_append_drop]

theorem frameDecode_consumed_pos : 0 < c := by
  have hb := FrameRecord.wireBytes_bounds (frameDecode_sound h).1
  rw [(frameDecode_consumed h).1]
  omega

theorem frameDecode_consumed_le : c ≤ buf.length := by
  obtain ⟨-, -, -, -, -, hle⟩ := frameDecode_eq_ok.mp h
  exact hle

/-- What follows a whole frame is not read. -/
theorem frameDecode_append (rest : List Byte) : frameDecode (buf ++ rest) = .ok (r, c) := by
  obtain ⟨hc, hbuf⟩ := frameDecode_consumed h
  rw [hbuf, List.append_assoc, hc]
  exact frameDecode_wireBytes_append (frameDecode_sound h).1 _

theorem frameDecode_take_consumed : frameDecode (buf.take c) = .ok (r, c) := by
  obtain ⟨hwf, hbytes⟩ := frameDecode_sound h
  rw [← hbytes, frameDecode_wireBytes hwf, (frameDecode_consumed h).1]

/-- A frame cut short is Incomplete. -/
theorem frameDecode_take_of_lt_consumed {k : Nat} (hk : k < c) : frameDecode (buf.take k) = .error .incomplete := by
  obtain ⟨hc, hbuf⟩ := frameDecode_consumed h
  rw [hbuf, List.take_append_of_le_length (by omega)]
  exact frameDecode_take_wireBytes (frameDecode_sound h).1 (by omega)

end

/-- A buffer that starts with a magic byte holds a whole frame or is Incomplete. -/
theorem frameDecode_magic (v : Version) (rest : List Byte) :
    (∃ p, frameDecode (v.magic :: rest) = .ok p) ∨ frameDecode (v.magic :: rest) = .error .incomplete := by
  by_cases hl : v.hdrLen ≤ (v.magic :: rest).length
  · rw [frameDecode_of_header (byteAt_cons_zero _ _) hl]
    split
    · exact .inr rfl
    · exact .inl ⟨_, rfl⟩
  · exact .inr (frameDecode_shortHeader v (by omega))

end Sys2Proof

namespace Sys2Proof.Machine

/-! ### The bytes held, as bytes are consumed (R153, R154) -/

section
variable {s : State}

theorem State.held_seeking (h : s.countAgrees) (hr : s.rxState = .seeking) : s.held = [] := by
  have hn : s.n = 0 := by simpa only [State.countAgrees, hr] using h
  rw [State.held, hn, Memory.slice_self]

/-- A candidate opened holds its magic byte. -/
theorem State.held_openCandidate (h : s.raw.wf = true) (v : Version) (b : Byte) : (s.openCandidate v b).held = [b] :=
  Memory.slice_write_end h (Nat.zero_le 0) b

/-- A state that holds bytes and no frame is in one of the four states of a candidate (R29). -/
theorem State.candidate_cases (h : s.countAgrees) (h0 : s.rxState ≠ .seeking) (he : s.rxState ≠ .emit) :
    s.rxState = .header ∨ s.rxState = .payload ∨ s.rxState = .checksum ∨ s.rxState = .signature := by
  unfold State.countAgrees at h
  cases hr : s.rxState with
  | seeking => exact absurd hr h0
  | emit => exact absurd hr he
  | unused6 | unused7 => simp only [hr] at h
  | _ => simp

/-- The candidate grows by the byte consumed. -/
theorem CandidateInv.held_consume (h : CandidateInv s) (h0 : s.rxState ≠ .seeking) (he : s.rxState ≠ .emit) (b : Byte) :
    (s.consume b).held = s.held ++ [b] := by
  have hn := (State.candidate_n_bounds h.countAgrees h0 he).2
  have hstore : (s.store b).held = s.held ++ [b] := by
    rw [State.held, State.store_raw, if_pos (show s.n < Config.rawCap from hn)]
    exact Memory.slice_write_end h.rawWf (Nat.zero_le _) b
  rcases State.candidate_cases h.countAgrees h0 he with hr | hr | hr | hr
  · rw [consume_header hr]; exact hstore
  · rw [consume_payload hr]; exact hstore
  · rw [consume_checksum hr]; exact hstore
  · rw [consume_signature hr]; exact hstore

/-! ### FrameDecode of a candidate that is no frame yet -/

/-- Inside a candidate, the frame is longer than the bytes held, once the length is known (R29). -/
theorem State.n_lt_total (h : s.countAgrees) (h0 : s.rxState ≠ .seeking) (he : s.rxState ≠ .emit) : s.n < s.total := by
  have htotal := s.total_eq
  unfold State.countAgrees at h
  cases hr : s.rxState <;> simp only [hr, ne_eq, reduceCtorEq, not_true_eq_false] at h h0 he <;> omega

/-- The bytes of a candidate are Incomplete to FrameDecode until the frame is held. -/
theorem State.Inv.frameDecode_candidate (h : s.Inv) (h0 : s.rxState ≠ .seeking) (he : s.rxState ≠ .emit) :
    frameDecode s.held = .error .incomplete := by
  have hn := (State.candidate_n_bounds h.countAgrees h0 he).1
  have hlt := State.n_lt_total h.countAgrees h0 he
  have hmagic : byteAt s.held 0 = s.ver.magic := (State.byteAt_held hn).trans (h.magicHeld h0)
  have hH : 6 ≤ s.hdrLen := s.ver.hdrLen_bounds.1
  by_cases hl : s.hdrLen ≤ s.n
  · have hlen : frameLength s.ver (recordAt s.ver s.held).len (recordAt s.ver s.held).incompat = s.total := by
      rw [recordAt_frameLength, signedOf_recordAt_incompat, State.byteAt_held (by omega), State.byteAt_held (by omega)]
      rfl
    rw [frameDecode_of_header hmagic (s.length_held.symm ▸ hl), hlen, if_pos (s.length_held.symm ▸ hlt)]
  · have hlen := s.length_held
    cases hheld : s.held with
    | nil =>
      rw [hheld, List.length_nil] at hlen
      omega
    | cons b rest =>
      rw [hheld] at hmagic hlen
      obtain rfl : b = s.ver.magic := hmagic
      exact frameDecode_shortHeader _ (by rw [hlen]; exact Nat.not_le.mp hl)

end

/-! ### Every view of a held frame shows the record FrameDecode reads from its bytes (R164) -/

/-- The signature bytes of a trailer stand in wire order after its link id and timestamp (R76). -/
theorem trailerAt_signature (buf : List Byte) (t : Nat) (j : Fin 6) :
    (trailerAt buf t).signature[j] = byteAt buf (t + 7 + j.val) := by
  fin_cases j <;> rfl

section
variable {s : State} (h : s.Inv) (he : s.rxState = .emit)
include h he

theorem State.Inv.headerFields_held :
    headerFields s.ver s.held =
      { len := s.len, incompat := s.flagField 2, compat := s.flagField 3, seq := s.field 2 4, sys := s.field 3 5,
        comp := s.field 4 6, msgid := s.msgid } := by
  obtain ⟨-, hck, -⟩ := h.held_bounds he
  have hH := s.hdrLen_eq
  cases hv : s.ver with
  | v1 =>
    rw [if_neg (by simp [hv])] at hH
    simp (disch := omega) only [headerFields, State.byteAt_held, State.len, State.flagField, State.field, State.msgid, hv]
  | v2 =>
    rw [if_pos hv] at hH
    simp (disch := omega) only [headerFields, State.byteAt_held, State.len, State.flagField, State.field, State.msgid, hv]

theorem State.Inv.recordAt_len_held : (recordAt s.ver s.held).len = s.raw.read 1 := by
  obtain ⟨-, hck, hH⟩ := h.held_bounds he
  rw [recordAt_len, State.byteAt_held (by omega)]

theorem State.Inv.recordAt_payload_held : (recordAt s.ver s.held).payload = s.raw.slice s.hdrLen (s.hdrLen + s.len) := by
  obtain ⟨-, hck, -⟩ := h.held_bounds he
  rw [recordAt_payload, ← recordAt_len, h.recordAt_len_held he]
  exact Memory.slice_slice_zero s.raw (show s.hdrLen + s.len ≤ s.n by omega)

theorem State.Inv.recordAt_checksum_held : (recordAt s.ver s.held).checksum = s.receivedChecksum := by
  obtain ⟨-, hck, -⟩ := h.held_bounds he
  rw [recordAt_checksum, ← recordAt_len, h.recordAt_len_held he]
  exact congrArg₂ le16 (State.byteAt_held (show s.hdrLen + s.len < s.n by omega))
    (State.byteAt_held (show s.hdrLen + s.len + 1 < s.n by omega))

theorem State.Inv.recordAt_sig_held :
    (recordAt s.ver s.held).sig = if s.signed then some (trailerAt s.held s.trailerOffset) else none := by
  obtain ⟨-, hck, hH⟩ := h.held_bounds he
  rw [recordAt_sig, signedOf_recordAt_incompat, ← recordAt_len, h.recordAt_len_held he, State.byteAt_held (by omega)]
  rfl

/-- The trailer of a held frame, read from its bytes, has the bytes the trailer views read (R43). -/
theorem State.Inv.trailerAt_held (hs : s.signed = true) :
    (trailerAt s.held s.trailerOffset).linkId = s.raw.read s.trailerOffset ∧
      (trailerAt s.held s.trailerOffset).timestamp = s.timestamp ∧
      ∀ j : Fin 6, (trailerAt s.held s.trailerOffset).signature[j] = s.raw.read (s.trailerOffset + 7 + j.val) := by
  have hn := State.n_eq_total h.countAgrees he
  have htotal := State.total_signed hs
  refine ⟨State.byteAt_held (by omega), ?_, fun j => ?_⟩
  · simp (disch := omega) only [trailerAt, State.timestamp, State.byteAt_held]
  · rw [trailerAt_signature, State.byteAt_held (by omega)]

theorem State.Inv.viewsShow_held : viewsShow (recordAt s.ver s.held) s.held s := by
  have shows {v : View} {x : BitVec v.width} (hn : v.named = true) (ht : v.ofTrailer = false) (hr : ∀ i, v ≠ .rawOut i)
      (hx : v.value s = x) : v.read s = .value x := hx ▸ View.read_held he hn ht hr
  have trailer {t : Trailer} (ht : (recordAt s.ver s.held).sig = some t) :
      s.signed = true ∧ t = trailerAt s.held s.trailerOffset := by
    rw [h.recordAt_sig_held he] at ht
    split at ht
    · exact ⟨‹_›, (Option.some.inj ht).symm⟩
    · cases ht
  have hfields := h.headerFields_held he
  have hn := State.n_eq_total h.countAgrees he
  exact
    { version := shows rfl rfl nofun rfl
      len := shows rfl rfl nofun (h.recordAt_len_held he).symm
      incompat := shows rfl rfl nofun (congrArg Header.incompat hfields).symm
      compat := shows rfl rfl nofun (congrArg Header.compat hfields).symm
      seq := shows rfl rfl nofun (congrArg Header.seq hfields).symm
      sys := shows rfl rfl nofun (congrArg Header.sys hfields).symm
      comp := shows rfl rfl nofun (congrArg Header.comp hfields).symm
      msgid := shows rfl rfl nofun (congrArg Header.msgid hfields).symm
      checksum := shows rfl rfl nofun (h.recordAt_checksum_held he).symm
      signed := by
        refine shows rfl rfl nofun (congrArg BitVec.ofBool ?_)
        rw [h.recordAt_sig_held he]
        cases s.signed <;> rfl
      linkId := by
        intro t ht
        obtain ⟨hs, rfl⟩ := trailer ht
        rw [(h.trailerAt_held he hs).1]
        exact View.read_trailer he hs rfl
      timestamp := by
        intro t ht
        obtain ⟨hs, rfl⟩ := trailer ht
        rw [(h.trailerAt_held he hs).2.1]
        exact View.read_trailer he hs rfl
      signature := by
        intro t j ht
        obtain ⟨hs, rfl⟩ := trailer ht
        rw [(h.trailerAt_held he hs).2.2 j]
        exact View.read_trailer he hs rfl
      advisory := by
        have hincompat : (recordAt s.ver s.held).incompat = s.flagField 2 := congrArg Header.incompat hfields
        refine shows rfl rfl nofun (congrArg BitVec.ofBool ?_)
        rw [hincompat, recordAt_version]
        cases hv : s.ver <;> simp [State.advUnknownIncompat, State.flagField, hv, Config.signedMask]
      payload := by
        intro i hi
        refine shows (decide_eq_true hi) rfl nofun (show s.payloadByte i = _ from ?_)
        rw [h.recordAt_payload_held he, State.payloadByte]
        split
        · rw [Memory.getD_slice _ (by omega)]
        · rw [List.getD_eq_default _ _ (by rw [Memory.length_slice]; omega)]
      totalLen := shows rfl rfl nofun (congrArg (BitVec.ofNat 9) (s.length_held.trans hn).symm)
      rawOut := by
        intro i hi
        rw [s.length_held] at hi
        have hread : s.held.getD i 0 = s.raw.read i := State.byteAt_held hi
        rw [hread]
        refine View.read_of_defined rfl (View.domainFault_eq_none.mpr (.inr ⟨he, nofun, ?_⟩))
        rintro _ ⟨⟩
        exact hn ▸ hi }

end

/-! ### A sequence pushed from SEEKING (R164) -/

/-- The state holds exactly these bytes, as a candidate or as a frame, and its status says which. -/
structure State.Holds (s : State) (bytes : List Byte) : Prop where
  inv : s.Inv
  started : s.rxState ≠ .seeking
  held : s.held = bytes
  status : s.status = if s.rxState = .emit then 0 else 1

namespace State.Holds

section
variable {s : State} {bytes : List Byte}

/-- The magic byte of a version, pushed in SEEKING, is held (R153). -/
theorem push_magic {b : Byte} {v : Version} (hr : s.rxState = .seeking) (hq : s.pq = []) (hwf : s.raw.wf = true)
    (hb : versionOf b = some v) : (s.push b).Holds [b] := by
  rw [Machine.push_magic hr hb]
  exact
    { inv := ((openCandidate_keeps hb hwf).report .incomplete).inv_of_queue_empty hq (.inr (.inl rfl))
      started := nofun
      held := State.held_openCandidate hwf v b
      status := rfl }

section
variable (h : s.Holds bytes)
include h

theorem push (he : s.rxState ≠ .emit) (b : Byte) : (s.push b).Holds (bytes ++ [b]) where
  inv := h.inv.push b
  started := push_ne_seeking h.started b
  held := by
    rw [push_of_ne_emit he, ← h.held]
    exact h.inv.candidate.held_consume h.started he b
  status := push_status he b

/-- While a frame is held, FrameDecode reads its record and consumes exactly the bytes held. -/
theorem frameDecode_emit (he : s.rxState = .emit) : frameDecode bytes = .ok (recordAt s.ver bytes, bytes.length) := by
  have hdecode := h.inv.frameDecode_held he
  rwa [← s.length_held, h.held] at hdecode

theorem frameDecode_candidate (he : s.rxState ≠ .emit) : frameDecode bytes = .error .incomplete :=
  h.held ▸ h.inv.frameDecode_candidate h.started he

/-- More bytes join those held, as long as no shorter part of them makes a whole frame. -/
theorem pushAll (more : List Byte) (hmore : ∀ k, k < more.length → ∀ p, frameDecode (bytes ++ more.take k) ≠ .ok p) :
    (s.pushAll more).Holds (bytes ++ more) := by
  induction more generalizing s bytes with
  | nil => rwa [pushAll_nil, List.append_nil]
  | cons b more ih =>
    have he : s.rxState ≠ .emit := by
      intro he
      refine hmore 0 (Nat.succ_pos _) (recordAt s.ver bytes, bytes.length) ?_
      rw [List.take_zero, List.append_nil]
      exact h.frameDecode_emit he
    rw [pushAll_cons, List.append_cons]
    refine ih (h.push he b) fun k hk p hp => hmore (k + 1) (Nat.succ_lt_succ hk) p ?_
    rwa [List.take_succ_cons, List.append_cons]

end

end

end State.Holds

/-- A sequence that starts with a magic byte and of which no shorter first part is a whole frame, pushed in SEEKING with nothing queued,
is held. -/
theorem pushAll_holds {s : State} {bytes : List Byte} {v : Version} (hr : s.rxState = .seeking) (hq : s.pq = [])
    (hwf : s.raw.wf = true) (hmagic : bytes.head? = some v.magic)
    (hshorter : ∀ k, k < bytes.length → ∀ p, frameDecode (bytes.take k) ≠ .ok p) : (s.pushAll bytes).Holds bytes := by
  cases bytes with
  | nil => cases hmagic
  | cons b rest =>
    obtain rfl : b = v.magic := Option.some.inj hmagic
    refine (State.Holds.push_magic hr hq hwf (versionOf_magic v)).pushAll rest fun k hk p hp => ?_
    exact hshorter (k + 1) (Nat.succ_lt_succ hk) p hp

/-- A whole frame, pushed in SEEKING with nothing queued, is held. -/
theorem pushAll_frame {s : State} {bytes : List Byte} {r : FrameRecord} (hr : s.rxState = .seeking) (hq : s.pq = [])
    (hwf : s.raw.wf = true) (hdecode : frameDecode bytes = .ok (r, bytes.length)) :
    (s.pushAll bytes).Holds bytes ∧ (s.pushAll bytes).rxState = .emit ∧ r = recordAt (s.pushAll bytes).ver bytes := by
  obtain ⟨v, hm, hl, -⟩ := frameDecode_eq_ok.mp hdecode
  have hhead : bytes.head? = some v.magic := by
    have hb := v.hdrLen_bounds
    cases bytes with
    | nil => rw [List.length_nil] at hl; omega
    | cons b rest => exact congrArg some hm
  have hholds := pushAll_holds hr hq hwf hhead fun k hk p hp => by
    rw [frameDecode_take_of_lt_consumed hdecode hk] at hp
    cases hp
  have he : (s.pushAll bytes).rxState = .emit := by
    by_contra hne
    rw [hholds.frameDecode_candidate hne] at hdecode
    cases hdecode
  refine ⟨hholds, he, ?_⟩
  rw [hholds.frameDecode_emit he] at hdecode
  cases hdecode
  rfl

end Sys2Proof.Machine

namespace Sys2Proof.Proofs

open Sys2Proof.Machine

/-- Settles O27: the unit is the PUSH of the bytes of a well-formed record, which are a whole frame. -/
theorem offeredFrameIsHeld : Obligations.OfferedFrameIsHeld := by
  intro s i r hlegal hr hq hwf hwell hi
  have hrecord : r.wellFormed = true := by
    rcases hi with rfl | rfl | rfl <;> simp only [Instr.wellFormed, Bool.and_eq_true] at hwell
    · exact hwell.1
    · exact hwell.1.1
    · exact hwell.1.1
  have hexec : exec i s = .next (s.pushAll r.wireBytes) :=
    (exec_of_offered (.inr ⟨r, rfl, hi⟩) s).trans (guarded_of_codesLegal hlegal _)
  obtain ⟨hholds, he, hview⟩ := pushAll_frame hr hq hwf (frameDecode_wireBytes hrecord)
  have hshow := hholds.inv.viewsShow_held he
  have hstatus := hholds.status
  rw [if_pos he] at hstatus
  rw [hholds.held, ← hview] at hshow
  refine ⟨_, hexec, he, ?_, ?_, hholds.held, (pushAll_pq _ _).trans hq, hstatus, pushAll_port _ _, hshow⟩
  · exact congrArg FrameRecord.version hview.symm
  · rw [← State.length_held, hholds.held]

/-- Settles O28: what is held is a frame exactly when FrameDecode reads one from the same bytes, and then the views show its
record. -/
theorem streamAndBufferAgree : Obligations.StreamAndBufferAgree := by
  intro s bytes hlegal hr hq hwf hhead
  have hexec : exec (.pushs bytes) s = .next (s.pushAll bytes) := guarded_of_codesLegal hlegal _
  obtain ⟨v, hv⟩ : ∃ v : Version, bytes.head? = some v.magic := hhead.elim (⟨.v1, ·⟩) (⟨.v2, ·⟩)
  refine ⟨fun hincomplete => ?incomplete, fun r hdecode => ?frame, fun r c k hdecode => ?consumed⟩
  case incomplete =>
    have hholds := pushAll_holds hr hq hwf hv fun k _ ⟨r, c⟩ hp => by
      have hall := frameDecode_append hp (bytes.drop k)
      rw [List.take_append_drop, hincomplete] at hall
      cases hall
    have he : (s.pushAll bytes).rxState ≠ .emit := by
      intro he
      rw [hholds.frameDecode_emit he] at hincomplete
      cases hincomplete
    have hstatus := hholds.status
    rw [if_neg he] at hstatus
    exact ⟨_, hexec, hstatus, State.candidate_cases hholds.inv.countAgrees hholds.started he⟩
  case frame =>
    obtain ⟨hholds, he, hview⟩ := pushAll_frame hr hq hwf hdecode
    have hstatus := hholds.status
    rw [if_pos he] at hstatus
    have hshow := hholds.inv.viewsShow_held he
    rw [hholds.held, ← hview] at hshow
    exact ⟨_, hexec, he, hstatus, hshow⟩
  case consumed =>
    exact ⟨frameDecode_consumed_le hdecode, fun _ hk => frameDecode_take_of_lt_consumed hdecode hk,
      frameDecode_take_consumed hdecode⟩

end Sys2Proof.Proofs
end

section
/-! PROOFS. The family 42_stream_receiver: a host's run over a stream against the scan of the stream with FrameDecode (R156,
R160 to R164, R167). -/

namespace Sys2Proof.Machine

/-! ### The reference scan, case by case -/

theorem drop_eq_byteAt_cons {buf : List Byte} {j : Nat} (h : j < buf.length) :
    buf.drop j = byteAt buf j :: buf.drop (j + 1) := by
  rw [List.drop_eq_getElem_cons h]
  simp [byteAt, h]

/-- The scan of a whole buffer: a count of its length is enough. -/
def scanAll (judge : List Byte → Bool) (buf : List Byte) : List (List Byte) := referenceScan judge buf.length buf

section
variable (judge : List Byte → Bool)

/-- Each turn of the scan takes at least one byte, so that any two counts that reach the length agree. -/
theorem referenceScan_count {k m : Nat} {buf : List Byte} (hk : buf.length ≤ k) (hm : buf.length ≤ m) :
    referenceScan judge k buf = referenceScan judge m buf := by
  induction k generalizing m buf with
  | zero =>
    obtain rfl := List.eq_nil_of_length_eq_zero (Nat.le_zero.mp hk)
    cases m <;> rfl
  | succ k ih =>
    cases buf with
    | nil => cases m <;> rfl
    | cons b bs =>
      cases m with
      | zero => exact absurd hm (Nat.not_succ_le_zero _)
      | succ m =>
        rw [List.length_cons] at hk hm
        have hbs : referenceScan judge k bs = referenceScan judge m bs := ih (by omega) (by omega)
        unfold referenceScan
        cases hd : frameDecode (b :: bs) with
        | ok p =>
          obtain ⟨r, c⟩ := p
          have hc := frameDecode_consumed_pos hd
          have hdrop : referenceScan judge k ((b :: bs).drop c) = referenceScan judge m ((b :: bs).drop c) := by
            apply ih <;> rw [List.length_drop, List.length_cons] <;> omega
          simp only [hbs, hdrop]
        | error e => cases e <;> simp only [hbs]

theorem referenceScan_eq_scanAll {k : Nat} {buf : List Byte} (hk : buf.length ≤ k) :
    referenceScan judge k buf = scanAll judge buf := referenceScan_count judge hk le_rfl

@[simp] theorem scanAll_nil : scanAll judge [] = [] := rfl

/-- A byte that starts no frame is skipped. -/
theorem scanAll_noise {b : Byte} (hb : versionOf b = none) (rest : List Byte) :
    scanAll judge (b :: rest) = scanAll judge rest := by
  simp only [scanAll, List.length_cons, referenceScan, frameDecode_badMagic hb]

/-- An incomplete frame ends the scan. -/
theorem scanAll_incomplete {buf : List Byte} (h : frameDecode buf = .error .incomplete) : scanAll judge buf = [] := by
  cases buf with
  | nil => rfl
  | cons b rest => simp only [scanAll, List.length_cons, referenceScan, h]

/-- A frame kept is left whole, a frame not kept one byte after its magic. -/
theorem scanAll_decoded {buf : List Byte} {r : FrameRecord} {c : Nat} (h : frameDecode buf = .ok (r, c)) :
    scanAll judge buf =
      if judge (buf.take c) then buf.take c :: scanAll judge (buf.drop c) else scanAll judge (buf.drop 1) := by
  have hc := frameDecode_consumed_pos h
  cases buf with
  | nil => cases h
  | cons b rest =>
    have hdrop : referenceScan judge rest.length ((b :: rest).drop c) = scanAll judge ((b :: rest).drop c) :=
      referenceScan_eq_scanAll judge (by rw [List.length_drop, List.length_cons]; omega)
    conv_lhs => rw [scanAll, List.length_cons, referenceScan, h]
    simp only [hdrop]
    rfl

/-- The scan of a sequence that starts with a whole frame. -/
theorem scanAll_frame_append {frame : List Byte} (h : isFrame frame) (rest : List Byte) :
    scanAll judge (frame ++ rest) =
      if judge frame then frame :: scanAll judge rest else scanAll judge (frame.drop 1 ++ rest) := by
  obtain ⟨r, hdecode⟩ := h
  have hpos := frameDecode_consumed_pos hdecode
  rw [scanAll_decoded judge (frameDecode_append hdecode rest), List.take_left, List.drop_left,
    List.drop_append_of_le_length (show 1 ≤ frame.length from hpos)]

theorem scanAll_noMagic_append {noise : List Byte} (h : noMagic noise) (rest : List Byte) :
    scanAll judge (noise ++ rest) = scanAll judge rest := by
  induction noise with
  | nil => rfl
  | cons b noise ih =>
    rw [List.cons_append, scanAll_noise judge (versionOf_eq_none.mpr (h b List.mem_cons_self))]
    exact ih fun c hc => h c (List.mem_cons_of_mem _ hc)

/-- Where every magic byte before a frame that is kept starts a whole frame, and none of those that is kept reaches into it, the
scan keeps that frame. -/
theorem mem_scanAll {before frame after : List Byte} (hframe : isFrame frame) (hkept : judge frame = true)
    (hfake : ∀ j, j < before.length → versionOf (byteAt before j) ≠ none →
      ∃ r c, frameDecode ((before ++ frame ++ after).drop j) = .ok (r, c) ∧
        (judge (slice (before ++ frame ++ after) j (j + c)) = true → j + c ≤ before.length))
    {j : Nat} (hj : j ≤ before.length) : frame ∈ scanAll judge ((before ++ frame ++ after).drop j) := by
  induction hd : before.length - j using Nat.strong_induction_on generalizing j with
  | _ d ih =>
    subst hd
    rcases Nat.lt_or_eq_of_le hj with hlt | rfl
    · have later {i : Nat} (hji : j < i) (hi : i ≤ before.length) :
          frame ∈ scanAll judge ((before ++ frame ++ after).drop i) := ih _ (by omega) hi rfl
      by_cases hm : versionOf (byteAt before j) = none
      · have hcons : (before ++ frame ++ after).drop j = byteAt before j :: (before ++ frame ++ after).drop (j + 1) := by
          have hlong : j < (before ++ frame ++ after).length := by
            rw [List.append_assoc, List.length_append]
            omega
          rw [drop_eq_byteAt_cons hlong, List.append_assoc, byteAt_append_left hlt]
        rw [hcons, scanAll_noise judge hm]
        exact later (Nat.lt_succ_self j) hlt
      · obtain ⟨r, c, hdecode, hend⟩ := hfake j hlt hm
        have hc := frameDecode_consumed_pos hdecode
        rw [slice, Nat.add_sub_cancel_left] at hend
        rw [scanAll_decoded judge hdecode, List.drop_drop, List.drop_drop]
        split
        · exact List.mem_cons_of_mem _ (later (by omega) (hend ‹_›))
        · exact later (Nat.lt_succ_self j) hlt
    · rw [List.append_assoc, List.drop_left, scanAll_frame_append judge hframe, if_pos hkept]
      exact List.mem_cons_self

end

/-! ### What the receiver has taken and has yet to scan, against the scan -/

section
variable (judge : List Byte → Bool) {s : State}

/-- Consuming a byte takes it out of what is yet to be scanned, and keeps what the scan gives. -/
theorem scanAll_consume (h : CandidateInv s) (he : s.rxState ≠ .emit) (b : Byte) (rest : List Byte) :
    scanAll judge (s.held ++ b :: rest) = scanAll judge ((s.consume b).held ++ rest) := by
  by_cases h0 : s.rxState = .seeking
  · have hheld := State.held_seeking h.countAgrees h0
    cases hb : versionOf b with
    | none => rw [consume_noise h0 hb, hheld, List.nil_append, List.nil_append, scanAll_noise judge hb]
    | some v =>
      rw [consume_magic h0 hb, State.held_openCandidate h.rawWf, hheld]
      rfl
  · rw [h.held_consume h0 he, List.append_assoc]
    rfl

theorem scanAll_drainFrom (h : CandidateInv s) (q rest : List Byte) :
    scanAll judge (s.held ++ (q ++ rest)) =
      scanAll judge ((State.drainFrom q s).held ++ ((State.drainFrom q s).pq ++ rest)) := by
  induction q generalizing s with
  | nil => rfl
  | cons b q ih =>
    unfold State.drainFrom
    split
    · rfl
    · next he => exact (scanAll_consume judge h he b (q ++ rest)).trans (ih (consume_keeps h b))

/-- Drain adds no byte to those held and queued. -/
theorem drainFrom_storage_le (q : List Byte) (s : State) :
    (State.drainFrom q s).n + (State.drainFrom q s).pq.length ≤ s.n + q.length := by
  induction q generalizing s with
  | nil => exact le_rfl
  | cons b q ih =>
    unfold State.drainFrom
    split
    · exact le_rfl
    · have hn := consume_n_le s b
      have hrest := ih (s.consume b)
      rw [List.length_cons]
      omega

/-! ### A frame serviced (R162, R163) -/

section
variable (h : s.Inv) (he : s.rxState = .emit)
include h he

theorem State.Inv.isFrame_held : isFrame s.held := by
  refine ⟨recordAt s.ver s.held, ?_⟩
  rw [s.length_held]
  exact h.frameDecode_held he

theorem State.Inv.accept_storage_lt : s.accept.n + s.accept.pq.length < s.n + s.pq.length := by
  obtain ⟨-, hck, -⟩ := h.held_bounds he
  have hdrain := drainFrom_storage_le s.pq s.release
  rw [State.release_n] at hdrain
  rw [accept_emit he]
  exact lt_of_le_of_lt hdrain (by omega)

theorem State.Inv.reject_storage_lt : s.reject.n + s.reject.pq.length < s.n + s.pq.length := by
  obtain ⟨-, hck, -⟩ := h.held_bounds he
  have hdrain := drainFrom_storage_le s.requeue.pq s.requeue.release
  rw [State.release_n, State.requeue_pq, List.length_append, Memory.length_slice] at hdrain
  rw [reject_emit he]
  exact lt_of_le_of_lt hdrain (by omega)

/-- A frame accepted is left whole. -/
theorem State.Inv.scanAll_accept (rest : List Byte) :
    scanAll judge (s.pq ++ rest) = scanAll judge (s.accept.held ++ (s.accept.pq ++ rest)) := by
  rw [accept_emit he]
  exact scanAll_drainFrom judge (release_keeps h.rawWf) s.pq rest

/-- A frame rejected is left one byte after its magic. -/
theorem State.Inv.scanAll_reject (rest : List Byte) :
    scanAll judge (s.held.drop 1 ++ (s.pq ++ rest)) = scanAll judge (s.reject.held ++ (s.reject.pq ++ rest)) := by
  rw [reject_emit he, s.held_drop_one, ← List.append_assoc]
  exact scanAll_drainFrom judge (release_keeps (s := s.requeue) h.rawWf) s.requeue.pq rest

end

end

/-! ### The host's run (R167, R213, R214) -/

section
variable {judge : List Byte → Bool} {keep : State → Bool} {s : State}
  (hkeep : ∀ s : State, s.Inv → s.rxState = .emit → keep s = judge s.held)
include hkeep

/-- Servicing ends with nothing held or queued, after as many commands as there are bytes at most, and keeps what the scan
keeps. -/
theorem serviceFrames_scan {k : Nat} (h : s.Inv) (hk : s.n + s.pq.length < k) :
    ∃ u fs, serviceFrames keep k s = some (u, fs) ∧ u.Inv ∧ u.rxState ≠ .emit ∧
      ∀ rest, scanAll judge (s.held ++ (s.pq ++ rest)) = fs ++ scanAll judge (u.held ++ rest) := by
  induction k generalizing s with
  | zero => exact absurd hk (Nat.not_lt_zero _)
  | succ k ih =>
    by_cases he : s.rxState = .emit
    · have hscan := scanAll_frame_append judge (h.isFrame_held he)
      rw [← hkeep s h he] at hscan
      cases hs : keep s with
      | true =>
        have hexec : exec (.accept 0) s = .next s.accept := guarded_of_codesLegal h.codesLegal _
        have hlt := h.accept_storage_lt he
        obtain ⟨u, fs, hservice, hinv, hne, hrest⟩ := ih h.accept (by omega)
        refine ⟨u, s.held :: fs, ?_, hinv, hne, fun rest => ?_⟩
        · simp only [serviceFrames, he, hs, hexec, hservice, if_true]
        · rw [hscan, hs, if_pos rfl, h.scanAll_accept judge he, hrest]
          rfl
      | false =>
        have hexec : exec (.reject 0) s = .next s.reject := guarded_of_codesLegal h.codesLegal _
        have hlt := h.reject_storage_lt he
        obtain ⟨u, fs, hservice, hinv, hne, hrest⟩ := ih h.reject (by omega)
        refine ⟨u, fs, ?_, hinv, hne, fun rest => ?_⟩
        · simp only [serviceFrames, he, hs, hexec, hservice, if_true, Bool.false_eq_true, if_false]
        · rw [hscan, hs, if_neg (by decide), h.scanAll_reject judge he, hrest]
    · refine ⟨s, [], ?_, h, he, fun rest => ?_⟩
      · simp only [serviceFrames, he, if_false]
      · rw [h.queueEmptyOutsideEmit he]
        rfl

/-- A run over a stream, from a state with no frame held, keeps the frames that the scan keeps of the bytes held and the stream. -/
theorem hostRun_scan (stream : List Byte) (h : s.Inv) (he : s.rxState ≠ .emit) :
    ∃ t, hostRun keep stream s = some (t, scanAll judge (s.held ++ stream)) := by
  induction stream generalizing s with
  | nil =>
    refine ⟨s, ?_⟩
    have hscan : scanAll judge s.held = [] := by
      by_cases h0 : s.rxState = .seeking
      · rw [State.held_seeking h.countAgrees h0, scanAll_nil]
      · exact scanAll_incomplete judge (h.frameDecode_candidate h0 he)
    rw [List.append_nil, hscan]
    rfl
  | cons b stream ih =>
    have hexec : exec (.push b) s = .next (s.push b) := guarded_of_codesLegal h.codesLegal _
    have hpush : scanAll judge (s.held ++ b :: stream) = scanAll judge ((s.push b).held ++ ((s.push b).pq ++ stream)) := by
      rw [scanAll_consume judge h.candidate he, push_pq, h.queueEmptyOutsideEmit he, push_of_ne_emit he]
      rfl
    obtain ⟨u, fs, hservice, hinv, hne, hrest⟩ :=
      serviceFrames_scan hkeep (k := Config.rawCap + 1) (h.push b) (Nat.lt_succ_of_le (h.push b).storageBounded)
    obtain ⟨t, ht⟩ := ih hinv hne
    refine ⟨t, ?_⟩
    simp only [hostRun, hexec, hservice, ht]
    rw [hpush, hrest]

theorem hostRun_reset (stream : List Byte) : ∃ t, hostRun keep stream State.reset = some (t, scanAll judge stream) :=
  hostRun_scan hkeep stream inv_reset (by decide)

end

/-- What VALIDATE says of a held frame is what the check of its bytes in a buffer says (R106). -/
theorem State.Inv.validateSays_eq {s : State} (extraOf : BitVec 24 → Byte) (h : s.Inv) (he : s.rxState = .emit) :
    validateSays extraOf s = frameSays extraOf s.held := by
  have hmsgid : (recordAt s.ver s.held).msgid = s.msgid := congrArg Header.msgid (h.headerFields_held he)
  have hmatch := h.frameChecksumMatches_held he (extraOf s.msgid)
  have hframe : frameSays extraOf s.held = frameChecksumMatches s.held (extraOf s.msgid) := by
    simp only [frameSays, h.frameDecode_held he, hmsgid]
  rw [hframe, Bool.eq_iff_iff, hmatch]
  simp only [validateSays, h.exec_validate_held he]
  split <;> simp [*]

end Sys2Proof.Machine

namespace Sys2Proof.Proofs

open Sys2Proof.Machine

/-- Settles O58: what the receiver holds, then what it has queued, then what the host has yet to push is a buffer whose scan keeps the
same frames after every command. -/
theorem receiverRefinesTheReferenceScan : Obligations.ReceiverRefinesTheReferenceScan :=
  fun _ stream => hostRun_reset (fun _ _ _ => rfl) stream

/-- Settles O59: the scan skips the noise and keeps both frames. -/
theorem acceptingHostGetsExactlyTheTwoFrames : Obligations.AcceptingHostGetsExactlyTheTwoFrames := by
  intro g1 f1 g2 f2 hg1 hg2 hf1 hf2
  have hscan : scanAll (fun _ => true) (g1 ++ f1 ++ g2 ++ f2) = [f1, f2] := calc
    scanAll (fun _ => true) (g1 ++ f1 ++ g2 ++ f2)
    _ = scanAll (fun _ => true) (g1 ++ (f1 ++ (g2 ++ (f2 ++ [])))) := by simp
    _ = f1 :: scanAll (fun _ => true) (g2 ++ (f2 ++ [])) := by
      rw [scanAll_noMagic_append _ hg1, scanAll_frame_append _ hf1, if_pos rfl]
    _ = [f1, f2] := by rw [scanAll_noMagic_append _ hg2, scanAll_frame_append _ hf2, if_pos rfl, scanAll_nil]
  rw [← hscan]
  exact hostRun_reset (judge := fun _ => true) (fun _ _ _ => rfl) _

/-- Settles O60: VALIDATE's verdict is that of the buffer's check, by which the scan leaves every fake candidate before the frame
starts. -/
theorem rejectingHostRecoversTheGenuineFrame : Obligations.RejectingHostRecoversTheGenuineFrame := by
  intro extraOf before frame after hframe hsays hfake
  obtain ⟨t, ht⟩ := hostRun_reset (keep := validateSays extraOf) (fun _ h he => h.validateSays_eq extraOf he)
    (before ++ frame ++ after)
  exact ⟨t, _, ht, mem_scanAll _ hframe hsays hfake (Nat.zero_le _)⟩

end Sys2Proof.Proofs
end

section
/-! PROOFS. The family 60_exceptions: what an error status leaves unchanged (R192), the status codes the block produces (R190), and
that the block never stops taking commands (R194). -/

namespace Sys2Proof.Machine

section
variable {s t : State} {i : Instr}

/-- Everything a command word can do (R160 to R166, R105): change no element but `status`; take a byte outside EMIT; release or replay
a held frame; or reset the block. -/
theorem exec_command_cases {w : Word} (hdecode : decode (.command w) = .ok i) (hexec : exec i s = .next t) :
    (∃ c, t = { s with status := c }) ∨
    (s.rxState ≠ .emit ∧ ∃ b, i = .push b ∧ t = s.push b) ∨
    (s.rxState = .emit ∧ ∃ a, i = .accept a ∧ t = s.accept) ∨
    (s.rxState = .emit ∧ ∃ a, i = .reject a ∧ t = s.reject) ∨
    (∃ a, i = .abort a ∧ t = s.resetBlock) := by
  have hencode : encode i = .command w := (encode_of_decode hdecode).1
  cases i with
  | nop a =>
    obtain ⟨-, rfl⟩ := guarded_eq_next.mp hexec
    exact .inl ⟨t.status, rfl⟩
  | push b =>
    obtain ⟨-, rfl⟩ := guarded_eq_next.mp hexec
    by_cases he : s.rxState = .emit
    · exact .inl ⟨_, push_emit he⟩
    · exact .inr (.inl ⟨he, b, rfl, rfl⟩)
  | validate x =>
    obtain ⟨-, rfl⟩ := guarded_eq_next.mp hexec
    obtain ⟨c, hc⟩ := validate_eq_report s Config.crcXorOut x
    exact .inl ⟨c.bits, hc⟩
  | accept a =>
    obtain ⟨-, rfl⟩ := guarded_eq_next.mp hexec
    by_cases he : s.rxState = .emit
    · exact .inr (.inr (.inl ⟨he, a, rfl, rfl⟩))
    · exact .inl ⟨_, accept_of_ne_emit he⟩
  | reject a =>
    obtain ⟨-, rfl⟩ := guarded_eq_next.mp hexec
    by_cases he : s.rxState = .emit
    · exact .inr (.inr (.inr (.inl ⟨he, a, rfl, rfl⟩)))
    · exact .inl ⟨_, reject_of_ne_emit he⟩
  | abort a => exact .inr (.inr (.inr (.inr ⟨a, rfl, (Host.Outcome.next.inj hexec).symm⟩)))
  | reserved op a =>
    obtain ⟨-, rfl⟩ := guarded_eq_next.mp hexec
    exact .inl ⟨_, rfl⟩
  | pushs _ | sofV1 | sofV2 | noise _ | v1Frame _ | v2FrameUnsigned _ | v2FrameSigned _ => cases hencode

theorem accept_status_of_emit (he : s.rxState = .emit) : s.accept.status = 0 := by
  rw [accept_emit he]
  rfl

theorem reject_status_of_emit (he : s.rxState = .emit) : s.reject.status = 0 := by
  rw [reject_emit he]
  rfl

/-- A command word that changes more than `status` reports OK or INCOMPLETE (R190). -/
theorem exec_command_reports_or_succeeds {w : Word} (hdecode : decode (.command w) = .ok i) (hexec : exec i s = .next t) :
    (∃ c, t = { s with status := c }) ∨ t.status = 0 ∨ t.status = 1 := by
  rcases exec_command_cases hdecode hexec with
    hreport | ⟨he, b, -, rfl⟩ | ⟨he, a, -, rfl⟩ | ⟨he, a, -, rfl⟩ | ⟨a, -, rfl⟩
  · exact .inl hreport
  · rw [push_status he]
    split <;> simp
  · exact .inr (.inl (accept_status_of_emit he))
  · exact .inr (.inl (reject_status_of_emit he))
  · exact .inr (.inl rfl)

/-- ACCEPT leaves an end of the queue (R156, R162). -/
theorem accept_pq (s : State) : ∃ k, s.accept.pq = s.pq.drop k := by
  by_cases he : s.rxState = .emit
  · obtain ⟨k, -, hdrain, -⟩ := release_drain_spec s s.pq
    exact ⟨k, congrArg State.pq ((accept_emit he).trans hdrain)⟩
  · rw [accept_of_ne_emit he]
    exact ⟨0, rfl⟩

/-- Only REJECT of a held frame lengthens the queue: any other command word leaves an end of it. -/
theorem exec_command_pq {w : Word} (hdecode : decode (.command w) = .ok i) (hexec : exec i s = .next t)
    (hreject : ∀ a, i ≠ .reject a) : ∃ k, t.pq = s.pq.drop k := by
  rcases exec_command_cases hdecode hexec with
    ⟨c, rfl⟩ | ⟨-, b, -, rfl⟩ | ⟨-, a, -, rfl⟩ | ⟨-, a, hi, -⟩ | ⟨a, -, rfl⟩
  · exact ⟨0, rfl⟩
  · exact ⟨0, push_pq s b⟩
  · exact accept_pq s
  · exact absurd hi (hreject a)
  · exact ⟨s.pq.length, List.drop_length.symm⟩

/-- In a state with legal codes every instruction completes (R194, R197). -/
theorem exec_completes (i : Instr) (h : s.codesLegal) : ∃ t, exec i s = .next t := by
  rcases exec_shape i with habort | ⟨f, -, hexec⟩
  · exact ⟨_, habort s⟩
  · exact ⟨f s, (hexec s).trans (guarded_of_codesLegal h _)⟩

end

end Sys2Proof.Machine

namespace Sys2Proof.Proofs

open Sys2Proof.Machine

/-- Settles O33: a command word either changes `status` alone, or its status is OK or INCOMPLETE, none of the three errors. -/
theorem errorStatusLeavesTheFramingState : Obligations.ErrorStatusLeavesTheFramingState := by
  intro w i s t hdecode hexec
  refine ⟨fun herror => ?_, exec_command_pq hdecode hexec⟩
  rcases exec_command_reports_or_succeeds hdecode hexec with ⟨c, rfl⟩ | hok | hincomplete
  · exact ⟨rfl, rfl, rfl, rfl, rfl⟩
  · rw [hok] at herror
    exact absurd herror (by decide)
  · rw [hincomplete] at herror
    exact absurd herror (by decide)

/-- Settles O40, from the invariant of every reachable state. -/
theorem reachableStatusIsAProducedCode : Obligations.ReachableStatusIsAProducedCode := fun _ h => h.inv.statusProduced

/-- Settles O41: a reachable state meets the invariant, whose codes are legal and which every instruction keeps. -/
theorem reachableBlockAlwaysTakesTheNextCommand : Obligations.ReachableBlockAlwaysTakesTheNextCommand := by
  intro s i h
  obtain ⟨t, hexec⟩ := exec_completes i h.inv.codesLegal
  exact ⟨t, hexec, (exec_keeps_inv h.inv hexec).codesLegal⟩

end Sys2Proof.Proofs
end


section
/-! PROOFS. The family 70_reset_and_hazards: which codes stop an instruction (U1, U5), the reset input and ABORT (R211), and what an
ACCEPT with nothing queued leaves (R214). -/

namespace Sys2Proof.Machine

section
variable {s : State} {i : Instr}

/-! ### The codes no rule reaches (U1, U5) -/

theorem RxState.unused_eq_true_iff {r : RxState} : r.unused = true ↔ r = .unused6 ∨ r = .unused7 := by
  cases r <;> simp [RxState.unused]

theorem RxState.unused_eq_false {r : RxState} (h6 : r ≠ .unused6) (h7 : r ≠ .unused7) : r.unused = false :=
  Bool.eq_false_iff.mpr fun h => (RxState.unused_eq_true_iff.mp h).elim h6 h7

theorem statusUnused_eq_true_iff {c : BitVec 4} :
    statusUnused c = true ↔ (4 ≤ c.toNat ∧ c.toNat ≤ 7) ∨ 11 ≤ c.toNat := by
  simp [statusUnused]

theorem statusUnused_eq_false {c : BitVec 4} (h : c.toNat ≤ 3 ∨ (8 ≤ c.toNat ∧ c.toNat ≤ 10)) : statusUnused c = false :=
  Bool.eq_false_iff.mpr fun hunused => by
    have := statusUnused_eq_true_iff.mp hunused
    omega

theorem codeFault_of_rxState_unused (h : s.rxState.unused = true) : s.codeFault = some .rxStateUnused := if_pos h

/-- The receiver state is looked at first (notes/assumptions/5). -/
theorem codeFault_of_status_unused (hrx : s.rxState.unused = false) (h : statusUnused s.status = true) :
    s.codeFault = some .statusUnused := by
  simp [State.codeFault, hrx, h]

/-- Every instruction but ABORT looks at the codes of the state it meets. -/
theorem exec_fault_of_codeFault {f : Fault} (h : s.codeFault = some f) (hi : ∀ a, i ≠ .abort a) : exec i s = .fault f := by
  cases i with
  | abort a => exact absurd rfl (hi a)
  | _ => exact guarded_eq_fault.mpr h

/-! ### The reset input and ABORT -/

@[simp] theorem exec_abort (a : Byte) (s : State) : exec (.abort a) s = .next s.resetBlock := rfl

theorem step_of_port_reset {rest : List HostEvent} (h : s.port = .reset :: rest) :
    step s = .next ({ s with port := rest } : State).resetBlock := step_of_port_cons h

/-! ### ACCEPT with nothing queued -/

theorem drain_of_pq_nil (h : s.pq = []) : s.drain = s := by
  cases s
  cases h
  rfl

theorem accept_of_pq_nil (he : s.rxState = .emit) (hq : s.pq = []) : s.accept = s.release.report .ok := by
  rw [accept_emit he, drain_of_pq_nil (s := s.release) hq]

end

end Sys2Proof.Machine

namespace Sys2Proof.Proofs

open Sys2Proof.Machine

/-- Settles O8: the three clauses are the two faults of `State.codeFault` and its absence. -/
theorem unusedCodesStopEveryInstructionButAbort : Obligations.UnusedCodesStopEveryInstructionButAbort := by
  intro s i
  refine ⟨fun hrx => ?rxStateUnused, fun h6 h7 hstatus => ?statusUnused, fun h6 h7 hstatus => ?legal⟩
  case rxStateUnused => exact exec_fault_of_codeFault (codeFault_of_rxState_unused (RxState.unused_eq_true_iff.mpr hrx))
  case statusUnused =>
    exact exec_fault_of_codeFault
      (codeFault_of_status_unused (RxState.unused_eq_false h6 h7) (statusUnused_eq_true_iff.mpr hstatus))
  case legal =>
    exact exec_completes i (codesLegal_iff.mpr ⟨RxState.unused_eq_false h6 h7, statusUnused_eq_false hstatus⟩)

/-- Settles O11: both are the reset of every element, with the rest of the port left pending. -/
theorem resetInputAndAbortAgree : Obligations.ResetInputAndAbortAgree := by
  intro s arg rest
  have hstep := step_of_port_reset (s := { s with port := .reset :: rest }) rfl
  exact ⟨hstep.trans (exec_abort arg _).symm, _, hstep⟩

/-- Settles O24: with nothing queued ACCEPT only releases the frame, and in SEEKING both commands report NOT_READY. -/
theorem afterAcceptNothingCanBeRejected : Obligations.AfterAcceptNothingCanBeRejected := by
  intro s a c x hlegal he hq
  have haccept : exec (.accept a) s = .next (s.release.report .ok) :=
    (guarded_of_codesLegal hlegal _).trans (congrArg _ (accept_of_pq_nil he hq))
  have hlegal' : (s.release.report .ok).codesLegal := codesLegal_iff.mpr ⟨rfl, rfl⟩
  have hseek : (s.release.report .ok).rxState ≠ .emit := nofun
  refine ⟨s.release.report .ok, haccept, rfl, rfl, ?reject, ?validate⟩
  case reject => exact (guarded_of_codesLegal hlegal' _).trans (congrArg _ (reject_of_ne_emit hseek))
  case validate => exact (guarded_of_codesLegal hlegal' _).trans (congrArg _ (validate_of_ne_emit hseek _ x))

end Sys2Proof.Proofs
end
